-- ==== Sys2Proof/Word.lean ====
section
/-! DEFINITION. The bit widths of the b64 block (spec/00_scope.md R3, spec/10_state.md R10, spec/30_encoding.md R45 to R50).
Only what the spec treats as bits is a bit vector; lengths and indices inside a command are natural numbers (R8). -/

namespace Sys2Proof

/-- `BYTE_W` = 8: a buffer element, a character code (R46), a command word (R45), the STATUS register (R12). -/
abbrev Byte := BitVec 8

/-- `LEN_W` = 32: ILEN, OLEN, IIDX, OIDX, EFF (R13, R14, R17); also `ACC_W` = 32, the accumulator window ACC (R16). -/
abbrev Word := BitVec 32

/-- `SYM_W` = 6: a symbol value, 0 to 63 (R47). -/
abbrev Sym := BitVec 6

/-- A reverse-table entry, 7 bits: bit 6 is `INV`, bits 5:0 are `VAL` (R48). -/
abbrev RevEntry := BitVec 7

/-- The group word `W`, 24 bits (R49). -/
abbrev GroupWord := BitVec 24

/-- NBITS, 5 bits, two's-complement signed (R15). -/
abbrev BitCount := BitVec 5

/-- The alphabet table ALPHA: 65 character codes, entry 64 the padding character (R22). -/
abbrev AlphaTable := Vector Byte 65

/-- The reverse table REV: 256 entries of 7 bits, indexed by character code (R23). -/
abbrev RevTable := Vector RevEntry 256

end Sys2Proof
end

