-- ==== Sys2Proof/Config.lean ====
section
/-! DEFINITION. What an implementation fixes (the OPEN parameter `CAP_IN`, spec/00_scope.md R3, R4) and the free values
(what the spec calls unspecified: spec/93_implementation_defined.md U10 to U14). Nothing here with no body has a value
that a proof can see. The other parameter of R3, the alphabet, is the contents of the ROM ALPHA: it stands in State and
its default in Machine/Tables.lean. -/

namespace Sys2Proof

/-- By how much `CAP_IN` exceeds 4. The bound is R4's: `CAP_IN >= 4` and `4 * ceil(CAP_IN / 3) < 2^32` hold for exactly
the values 4 to 3221225469 of `CAP_IN`, so this constant stands for every `CAP_IN` the spec allows and for no other. -/
opaque Config.capExtra : Fin 3221225466

/-- `CAP_IN`, the number of elements of IBUF: OPEN (R3). -/
def Config.capIn : Nat := Config.capExtra.val + 4

/-- `CAP_OUT = 4 * ceil(CAP_IN / 3)`, the number of elements of OBUF (R3). -/
def Config.capOut : Nat := 4 * ((Config.capIn + 2) / 3)

/-- FREE VALUE: element `i` of IBUF when it became unspecified for the `gen`-th time (a reset) and the host has not
written it since: any 8-bit value, the same on every read until it is written (R20, R25, R39, U10). -/
opaque Config.freeIbuf (gen i : Nat) : Byte

/-- FREE VALUE: element `i` of OBUF when it became unspecified for the `gen`-th time (a reset, a DEC or an ENC) and was
not written since: any 8-bit value, the same on every read (R21, R25, R39, U11 to U13). -/
opaque Config.freeObuf (gen i : Nat) : Byte

/-- FREE VALUE: ACC after the `gen`-th fault of a DEC or ENC (R135, U14). -/
opaque Config.freeAcc (gen : Nat) : Word

/-- FREE VALUE: NBITS after the `gen`-th fault of a DEC or ENC (R135, U14). -/
opaque Config.freeNbits (gen : Nat) : BitCount

/-- FREE VALUE: IIDX after the `gen`-th fault of a DEC or ENC (R135, U14). -/
opaque Config.freeIidx (gen : Nat) : Word

/-- FREE VALUE: OIDX after the `gen`-th fault of a DEC or ENC (R135, U14). -/
opaque Config.freeOidx (gen : Nat) : Word

/-- FREE VALUE: EFF after the `gen`-th fault of a DEC or ENC (R135, U14). -/
opaque Config.freeEff (gen : Nat) : Word

end Sys2Proof
end

