-- ==== Sys2Proof/Syntax.lean ====
section
/-! DEFINITION. The commands of the block: the four rows of spec/opcode_table.json (spec/30_encoding.md R45, R55). -/

namespace Sys2Proof

/-- A command. It has no register field, no immediate and no mode field (R45); its operands are implicit: ILEN and
IBUF in, OLEN, OBUF and STATUS out (R62). -/
inductive Instr where
  /-- `NOP`, CMD value 0x00 (R70). -/
  | nop
  /-- `TBL`, CMD value 0x01, the Reverse Table Builder (R71). -/
  | tbl
  /-- `DEC`, CMD value 0x02, base64 text to bytes (R75). -/
  | dec
  /-- `ENC`, CMD value 0x03, bytes to base64 text (R100). -/
  | enc
  deriving DecidableEq, Repr

end Sys2Proof
end

