-- ==== Sys2Proof/WellFormed.lean ====
section
/-! DEFINITION. When a term is well-formed: a command (always, it has no operand), a command word (its reserved bits are
zero), an alphabet (the constraints of spec/00_scope.md R4), a capacity (R4). -/

namespace Sys2Proof

/-- A command names no operand, so every command is well-formed (R45, R62). -/
def Instr.wellFormed : Instr → Bool
  | .nop => true
  | .tbl => true
  | .dec => true
  | .enc => true

/-- The command words that are not reserved: 0x04 to 0xFF are (R56). -/
def commandWellFormed (v : Byte) : Bool := v.toNat < 4

/-- R4 for the capacity: `CAP_IN >= 4` and `CAP_OUT < 2^LEN_W` with `CAP_OUT = 4 * ceil(CAP_IN / 3)`. -/
def capacityWellFormed (capIn : Nat) : Bool := 4 ≤ capIn && 4 * ((capIn + 2) / 3) < 2 ^ 32

/-- R4 for the codes of the alphabet: the 64 data symbols are pairwise different and `PAD` differs from each, so the 65
codes are pairwise different. That every code is in 0..255 is its type. -/
def alphabetDistinct (alpha : AlphaTable) : Bool :=
  (List.finRange 65).all fun i => (List.finRange 65).all fun j => i == j || alpha[i] != alpha[j]

/-- R4, the seven entries that the document's examples fix: `E` 4, `F` 5, `Q` 16, `T` 19, `W` 22, `u` 46 and `=` 64. -/
def alphabetPinned (alpha : AlphaTable) : Bool :=
  alpha[4] == 0x45#8 && alpha[5] == 0x46#8 && alpha[16] == 0x51#8 && alpha[19] == 0x54#8 && alpha[22] == 0x57#8 &&
    alpha[46] == 0x75#8 && alpha[64] == 0x3D#8

/-- R4 for the alphabet, whole. -/
def alphabetWellFormed (alpha : AlphaTable) : Bool := alphabetDistinct alpha && alphabetPinned alpha

end Sys2Proof
end

