-- ==== Sys2Proof/Decode.lean ====
section
/-! DEFINITION. The command decoder and the command encoder (spec/30_encoding.md R45, R55, R56): one format, `CMD8`, with
`RSV` in bits 7:2 and `OP` in bits 1:0. -/

namespace Sys2Proof

/-- Why a command word is no command. -/
inductive Reject where
  /-- `RSV` is not zero: one of the 252 reserved values 0x04 to 0xFF (R56). -/
  | reservedCommand (v : Byte)
  deriving DecidableEq, Repr

/-- `RSV`, bits 7:2 of a command word (R45). -/
def rsvField (v : Byte) : BitVec 6 := v.extractLsb' 2 6

/-- `OP`, bits 1:0 of a command word (R45). -/
def opField (v : Byte) : BitVec 2 := v.extractLsb' 0 2

/-- The command that `OP` selects: 00 NOP, 01 TBL, 10 DEC, 11 ENC (R45). -/
def commandOfOp (op : BitVec 2) : Instr :=
  if op = 0b00#2 then .nop
  else if op = 0b01#2 then .tbl
  else if op = 0b10#2 then .dec
  else .enc

/-- R55: `v[7:2] = 0` is tested first; if so `v[1:0]` selects the command; if not, the value is reserved. -/
def decode (v : Byte) : Except Reject Instr :=
  if rsvField v = 0b000000#6 then .ok (commandOfOp (opField v)) else .error (.reservedCommand v)

/-- `OP` of a command (R45). -/
def opOfCommand : Instr → BitVec 2
  | .nop => 0b00#2
  | .tbl => 0b01#2
  | .dec => 0b10#2
  | .enc => 0b11#2

/-- The command word of a command: `RSV = 000000` above its `OP` (R45). -/
def encode (i : Instr) : Byte := 0b000000#6 ++ opOfCommand i

/-- The command word that the low `nbits` bits of `w` are, bit 0 the least significant (R6); every bit above is 0. -/
def tableByte (nbits w : Nat) : Byte := BitVec.ofNat 8 (w % 2 ^ nbits)

/-- What the decoder reads from a row of spec/opcode_table.json whose bits are `w`. -/
def decodeTableWord (nbits w : Nat) : Option Instr :=
  match decode (tableByte nbits w) with
  | .ok i => some i
  | .error _ => none

end Sys2Proof
end

