-- ==== Sys2Proof/Machine/Tables.lean ====
section
/-! DEFINITION. The two tables: their default contents (spec/30_encoding.md R53, R54), how they are read
(spec/20_memory.md R39), and the builder that ties the second to the first (spec/40_table_and_control.md R65 to R68, R72). -/

namespace Sys2Proof.Machine

/-- R53, values 0 to 31: `A` to `Z`, then `a` to `f`. -/
def alphaLow : List Byte :=
  [0x41, 0x42, 0x43, 0x44, 0x45, 0x46, 0x47, 0x48, 0x49, 0x4A, 0x4B, 0x4C, 0x4D, 0x4E, 0x4F, 0x50] ++
  [0x51, 0x52, 0x53, 0x54, 0x55, 0x56, 0x57, 0x58, 0x59, 0x5A, 0x61, 0x62, 0x63, 0x64, 0x65, 0x66]

/-- R53, values 32 to 63: `g` to `z`, `0` to `9`, `+`, `/`. -/
def alphaHigh : List Byte :=
  [0x67, 0x68, 0x69, 0x6A, 0x6B, 0x6C, 0x6D, 0x6E, 0x6F, 0x70, 0x71, 0x72, 0x73, 0x74, 0x75, 0x76] ++
  [0x77, 0x78, 0x79, 0x7A, 0x30, 0x31, 0x32, 0x33, 0x34, 0x35, 0x36, 0x37, 0x38, 0x39, 0x2B, 0x2F]

/-- The default ALPHA (R53); entry 64 is `=`, the padding character. PRESUMED where the spec itself says so (58 of the 65
entries and the ASCII codes are the spec's own general knowledge, G1 and G2): notes/assumptions/2.md. -/
def defaultAlpha : AlphaTable := ⟨(alphaLow ++ alphaHigh ++ [0x3D]).toArray, rfl⟩

/-- R54, rows 0x0x to 0x3x of the default REV. -/
def revRows03 : List RevEntry :=
  [0x40, 0x40, 0x40, 0x40, 0x40, 0x40, 0x40, 0x40, 0x40, 0x40, 0x40, 0x40, 0x40, 0x40, 0x40, 0x40] ++
  [0x40, 0x40, 0x40, 0x40, 0x40, 0x40, 0x40, 0x40, 0x40, 0x40, 0x40, 0x40, 0x40, 0x40, 0x40, 0x40] ++
  [0x40, 0x40, 0x40, 0x40, 0x40, 0x40, 0x40, 0x40, 0x40, 0x40, 0x40, 0x3E, 0x40, 0x40, 0x40, 0x3F] ++
  [0x34, 0x35, 0x36, 0x37, 0x38, 0x39, 0x3A, 0x3B, 0x3C, 0x3D, 0x40, 0x40, 0x40, 0x40, 0x40, 0x40]

/-- R54, rows 0x4x to 0x7x of the default REV. -/
def revRows47 : List RevEntry :=
  [0x40, 0x00, 0x01, 0x02, 0x03, 0x04, 0x05, 0x06, 0x07, 0x08, 0x09, 0x0A, 0x0B, 0x0C, 0x0D, 0x0E] ++
  [0x0F, 0x10, 0x11, 0x12, 0x13, 0x14, 0x15, 0x16, 0x17, 0x18, 0x19, 0x40, 0x40, 0x40, 0x40, 0x40] ++
  [0x40, 0x1A, 0x1B, 0x1C, 0x1D, 0x1E, 0x1F, 0x20, 0x21, 0x22, 0x23, 0x24, 0x25, 0x26, 0x27, 0x28] ++
  [0x29, 0x2A, 0x2B, 0x2C, 0x2D, 0x2E, 0x2F, 0x30, 0x31, 0x32, 0x33, 0x40, 0x40, 0x40, 0x40, 0x40]

/-- R54, a row of the default REV with no data symbol in it. -/
def revRowNone : List RevEntry :=
  [0x40, 0x40, 0x40, 0x40, 0x40, 0x40, 0x40, 0x40, 0x40, 0x40, 0x40, 0x40, 0x40, 0x40, 0x40, 0x40]

/-- R54, rows 0x8x to 0xFx of the default REV: 128 entries, all 0x40. -/
def revRows8F : List RevEntry :=
  revRowNone ++ revRowNone ++ revRowNone ++ revRowNone ++ revRowNone ++ revRowNone ++ revRowNone ++ revRowNone

/-- The default REV (R54), every one of its 256 entries. -/
def defaultRev : RevTable := ⟨(revRows03 ++ revRows47 ++ revRows8F).toArray, by decide +kernel⟩

/-- `ALPHA[i]` for a symbol value `i` (R22). A symbol value is below 64, so it never selects the pad (R47). -/
def alphaAt (alpha : AlphaTable) (i : Sym) : Byte := alpha[i.toNat]'(by have := i.isLt; omega)

/-- `PAD = ALPHA[64]` (R3, R65). -/
def padOf (alpha : AlphaTable) : Byte := alpha[64]

/-- `REV[c]`, the 7-bit entry of a character code (R23). -/
def revAt (rev : RevTable) (c : Byte) : RevEntry := rev[c.toNat]'c.isLt

/-- `INV`, bit 6 of a reverse-table entry: the code is not a data symbol (R48). -/
def revInv (e : RevEntry) : Bool := e.getLsbD 6

/-- `VAL`, bits 5:0 of a reverse-table entry: the symbol value (R48). -/
def revVal (e : RevEntry) : Sym := e.extractLsb' 0 6

/-- The entry of a code that is no data symbol: `INV = 1`, `VAL = 0` (R67 for the pad, R68 for every other code). -/
def revNoSymbol : RevEntry := 0x40#7

/-- The entry that R66 to R68 give the code `c`: the position of `c` among the 64 data symbols where it is one of them,
and 0x40 where it is not. -/
def revEntryFor (alpha : AlphaTable) (c : Byte) : RevEntry :=
  match (alpha.toList.take 64).idxOf? c with
  | some i => BitVec.ofNat 7 i
  | none => revNoSymbol

/-- The ROM that R66 to R68 give an alphabet, entry by entry. -/
def buildRev (alpha : AlphaTable) : RevTable := Vector.ofFn fun c => revEntryFor alpha (BitVec.ofNat 8 c.val)

/-- The document's lazily built table (R72): a flag `built`, and 256 entries with no defined contents until it is set. It
describes the source and is no state of the hardware; R72 shows the ROM equal to it. -/
structure LazyTable where
  built : Bool
  table : RevTable
  deriving DecidableEq, Repr

/-- The builder's loop of R72: `T[ALPHA[i]] <- i` for `i` = 0, 1, ... `n - 1`. -/
def lazyFill (alpha : AlphaTable) : (n : Nat) → n ≤ 65 → RevTable → RevTable
  | 0, _, t => t
  | n + 1, h, t => (lazyFill alpha n (by omega) t).set (alpha[n]).toNat (BitVec.ofNat 7 n) (alpha[n]).isLt

/-- `ensure()` of R72: build the table if it is not built (positions 0 to 63 and, by the document's section 9, the pad's
64), and do nothing if it is. -/
def lazyEnsure (alpha : AlphaTable) (l : LazyTable) : LazyTable :=
  if l.built then l else { built := true, table := lazyFill alpha 65 (Nat.le_refl 65) l.table }

end Sys2Proof.Machine
end

