-- ==== Sys2Proof/Machine/State.lean ====
section
/-! DEFINITION. The state of the block, every piece that spec/10_state.md R10 lists; the reasons a step stops; the state
after reset (R25). State is plain data. -/

namespace Sys2Proof.Machine

/-- A buffer's specified elements: pairs of an index and a byte, indices strictly rising. An index that is not listed is
an UNSPECIFIED element: it holds no byte of its own and reads as a free value (R21, R25, R39). -/
abbrev Memory := List Host.Cell

/-- A transaction of the host on the block (R32). Register numbers and indices are any natural number, and a value
written to a register is any natural number, truncated to the register's width. -/
inductive Transaction where
  /-- `WR n, v`: write value `v` to register number `n`. -/
  | wr (n v : Nat)
  /-- `RD n`: read register number `n`. -/
  | rd (n : Nat)
  /-- `WRB i, v`: `IBUF[i] <- v`. -/
  | wrb (i : Nat) (v : Byte)
  /-- `RDBI i`: read `IBUF[i]`. -/
  | rdbi (i : Nat)
  /-- `RDB i`: read `OBUF[i]`. -/
  | rdb (i : Nat)
  /-- `RESET`: the reset event (R150). -/
  | reset
  deriving DecidableEq, Repr

/-- Why the machine stops with a fault: NOTHING DOES. A fault of this hardware is a sticky flag of STATUS with the effect
of R135, after which the block goes on (R130, R138): it is a next state, so no step answers a machine-stopping fault and
the type has no constructor. Safe: nothing that could go on is stopped. -/
inductive Fault where
  deriving DecidableEq, Repr

/-- Why a transaction or an instruction has no step. -/
inductive Refusal where
  /-- An instruction with no meaning yet. Raised by no arm of `exec`: every command has its meaning. Safe. -/
  | notModelled (mnemonic : String)
  /-- `WR` or `RD` of a register number above 3, raised by `State.writeReg` and `State.readReg`: the spec refuses it and
  gives it no meaning (R34, U19). Safe. -/
  | noSuchRegister (n : Nat)
  /-- `WRB` or `RDBI` with an index at or above `CAP_IN`, raised by `transact` (R34, U19). Safe. -/
  | noSuchIbufElement (i : Nat)
  /-- `RDB` with an index at or above `CAP_OUT`, raised by `transact` (R34, U19). Safe. -/
  | noSuchObufElement (i : Nat)
  deriving DecidableEq, Repr

/-- The state of the block (R10). CMD holds nothing (R11), so it has no field. The last five fields are the MODEL'S OWN:
the generation counters that the free values are applied to, and the two ends of the host's stream of transactions. -/
structure State where
  /-- STATUS, register 1, as stored; the host reads it through `statusRead` (R12). -/
  status : Byte
  /-- ILEN, register 2 (R13). -/
  ilen : Word
  /-- OLEN, register 3 (R14). -/
  olen : Word
  /-- ACC, the accumulator window (R16). -/
  acc : Word
  /-- NBITS, signed (R15). -/
  nbits : BitCount
  /-- IIDX (R17). -/
  iidx : Word
  /-- OIDX (R17). -/
  oidx : Word
  /-- EFF (R17). -/
  eff : Word
  /-- IBUF, `CAP_IN` elements: those the host has written since reset (R20). -/
  ibuf : Memory
  /-- OBUF, `CAP_OUT` elements: those the last DEC or ENC that completed has written (R21). -/
  obuf : Memory
  /-- ALPHA, a ROM (R22, R65). -/
  alpha : AlphaTable
  /-- REV, a ROM (R23, R66 to R68). -/
  rev : RevTable
  /-- Model's own: how often IBUF has become unspecified. -/
  ibufGen : Nat
  /-- Model's own: how often OBUF has become unspecified. -/
  obufGen : Nat
  /-- Model's own: how often the working registers have become unspecified. -/
  workGen : Nat
  /-- Model's own: the host's transactions that are still to come, in the host's program order (R32, R42). -/
  pending : List Transaction
  /-- Model's own: every value a read has returned to the host, the latest first (R32). -/
  received : List Word
  deriving DecidableEq, Repr

/-- The state after reset (R25): `STATUS = 0x01`, the lengths and the working registers 0, every element of both buffers
unspecified, the ROMs at their default contents. No transaction has been issued yet. -/
def State.reset : State where
  status := 0x01#8
  ilen := 0#32
  olen := 0#32
  acc := 0#32
  nbits := 0#5
  iidx := 0#32
  oidx := 0#32
  eff := 0#32
  ibuf := []
  obuf := []
  alpha := defaultAlpha
  rev := defaultRev
  ibufGen := 0
  obufGen := 0
  workGen := 0
  pending := []
  received := []

end Sys2Proof.Machine
end

