-- ==== Sys2Proof/Machine/Flags.lean ====
section
/-! DEFINITION. The four sticky error flags of STATUS (spec/10_state.md R12, R19; spec/60_exceptions.md R130, R131) and
every condition that sets one (R132 to R136). -/

namespace Sys2Proof.Machine

/-- The causes of a fault (R131). -/
inductive ErrCause where
  /-- `ERR_CMD`: a command word with reserved bits set (R132). -/
  | cmd
  /-- `ERR_CAP`: a DEC or ENC with `ILEN > CAP_IN` (R133). -/
  | cap
  /-- `ERR_LEN`: a DEC with `ILEN mod 4 != 0` (R134). -/
  | len
  /-- `ERR_CHAR`: a DEC with a character below EFF that is no data symbol (R136). -/
  | char
  deriving DecidableEq, Repr

/-- The bit of STATUS that a cause sets (R131). -/
def errBit : ErrCause → Nat
  | .cmd => 1
  | .cap => 2
  | .len => 3
  | .char => 4

/-- The mask of that bit: 0x02, 0x04, 0x08, 0x10 (R131). -/
def errMask (c : ErrCause) : Byte := 1#8 <<< errBit c

/-- STATUS with the flag of a cause set; every other bit is kept, since the flags are sticky (R135, R138). -/
def setErr (status : Byte) (c : ErrCause) : Byte := status ||| errMask c

/-- Whether the flag of a cause is set. -/
def errSet (status : Byte) (c : ErrCause) : Bool := status.getLsbD (errBit c)

/-- What the host reads from STATUS: `TBL_RDY`, bit 0, is hardwired 1, and bits 7:5 read as 0 (R12). -/
def statusRead (status : Byte) : Byte := (status &&& 0x1E#8) ||| 0x01#8

/-- The condition of `ERR_CAP`: the input does not fit the buffer (R133). -/
def exceedsCap (capIn ilen : Nat) : Bool := capIn < ilen

/-- The condition of `ERR_LEN`: not whole groups of four characters (R134). -/
def notWholeGroups (ilen : Nat) : Bool := ilen % 4 != 0

/-- The condition that makes `bad` 1 at one position of a chunk: it lies below EFF and its entry has `INV = 1` (R82). -/
def invalidAt (eff i : Nat) (inv : Bool) : Bool := i < eff && inv

end Sys2Proof.Machine
end

