-- ==== Sys2Proof/Machine/Operands.lean ====
section
/-! DEFINITION. The two operand assemblies of the hardware (spec/30_encoding.md R61): the 24-bit group word of the PACK
core (R49, R83, R90) and the 32-bit accumulator window of the UNPACK core (R50, R103 to R106, R111). Every widening is a
zero extension. -/

namespace Sys2Proof.Machine

/-- `W <- (s_0 << 18) | (s_1 << 12) | (s_2 << 6) | s_3`, each zero-extended to 24 bits before its shift (R83). -/
def groupWord (s0 s1 s2 s3 : Sym) : GroupWord :=
  (s0.setWidth 24 <<< 18) ||| (s1.setWidth 24 <<< 12) ||| (s2.setWidth 24 <<< 6) ||| s3.setWidth 24

/-- `W[23:16]`, the first byte of a group (R49). -/
def groupByte0 (w : GroupWord) : Byte := w.extractLsb' 16 8

/-- `W[15:8]`, the second byte of a group (R49). -/
def groupByte1 (w : GroupWord) : Byte := w.extractLsb' 8 8

/-- `W[7:0]`, the last byte of a group (R49). -/
def groupByte2 (w : GroupWord) : Byte := w.extractLsb' 0 8

/-- The outputs of the PACK core: three bytes and four invalid bits (R90). -/
structure Packed where
  b0 : Byte
  b1 : Byte
  b2 : Byte
  inv0 : Bool
  inv1 : Bool
  inv2 : Bool
  inv3 : Bool
  deriving DecidableEq, Repr

/-- The PACK core: four character codes through REV to three bytes and four invalid bits, with no state (R90). -/
def packCore (rev : RevTable) (c0 c1 c2 c3 : Byte) : Packed :=
  let w := groupWord (revVal (revAt rev c0)) (revVal (revAt rev c1)) (revVal (revAt rev c2)) (revVal (revAt rev c3))
  { b0 := groupByte0 w
    b1 := groupByte1 w
    b2 := groupByte2 w
    inv0 := revInv (revAt rev c0)
    inv1 := revInv (revAt rev c1)
    inv2 := revInv (revAt rev c2)
    inv3 := revInv (revAt rev c3) }

/-- `24 - NBITS`, the shift that puts a byte's top bit just below the buffered bits (R50, R103). -/
def windowOffset (nbits : BitCount) : Nat := (24 - nbits.toInt).toNat

/-- `ACC | (zext_32(B) << (24 - NBITS))`: a byte enters the window (R50, R103). -/
def windowFill (acc : Word) (nbits : BitCount) (b : Byte) : Word := acc ||| (b.setWidth 32 <<< windowOffset nbits)

/-- `ACC >> 26`, a logical shift: the next symbol value, bits 31:26 (R104). -/
def windowSelect (acc : Word) : Sym := (acc >>> 26).setWidth 6

/-- `(ACC << 6) mod 2^32`: the symbol value just used leaves the window (R106). -/
def windowShift (acc : Word) : Word := acc <<< 6

/-- `NBITS + 8`: a byte was taken in (R103). -/
def countFill (nbits : BitCount) : BitCount := nbits + 8#5

/-- `NBITS - 6`, a signed subtraction: a character was sent out (R106). -/
def countShift (nbits : BitCount) : BitCount := nbits - 6#5

/-- `NBITS < 6`, signed: fewer than 6 bits are buffered (R103). -/
def needsFill (nbits : BitCount) : Bool := nbits.toInt < 6

/-- `NBITS > 0`, signed: buffered bits remain (R102). -/
def bitsRemain (nbits : BitCount) : Bool := 0 < nbits.toInt

/-- The first symbol value of a 3-byte group, `B_0[7:2]` (R111). -/
def groupSym0 (b0 : Byte) : Sym := b0.extractLsb' 2 6

/-- The second, `B_0[1:0] ++ B_1[7:4]` (R111). -/
def groupSym1 (b0 b1 : Byte) : Sym := b0.extractLsb' 0 2 ++ b1.extractLsb' 4 4

/-- The third, `B_1[3:0] ++ B_2[7:6]` (R111). -/
def groupSym2 (b1 b2 : Byte) : Sym := b1.extractLsb' 0 4 ++ b2.extractLsb' 6 2

/-- The fourth, `B_2[5:0]` (R111). -/
def groupSym3 (b2 : Byte) : Sym := b2.extractLsb' 0 6

/-- The UNPACK core seen over one whole 3-byte group: four character codes (R111). -/
def unpackCore (alpha : AlphaTable) (b0 b1 b2 : Byte) : List Byte :=
  [alphaAt alpha (groupSym0 b0), alphaAt alpha (groupSym1 b0 b1), alphaAt alpha (groupSym2 b1 b2),
    alphaAt alpha (groupSym3 b2)]

end Sys2Proof.Machine
end

