-- ==== Sys2Proof/Machine/Ops.lean ====
section
/-! DEFINITION. The named operations over the buffers and the registers (spec/20_memory.md R30 to R40), the effect of a
fault as ONE operation (spec/60_exceptions.md R135, R132) and the reset event, which alone undoes it (R138, R150). There
is no return from a fault: no state is saved and control goes nowhere (R138). -/

namespace Sys2Proof.Machine

/-- The byte listed at index `i`; `none` where the element is unspecified. -/
def Memory.lookup : Memory → Nat → Option Byte
  | [], _ => none
  | (a, b) :: m, i => if i = a then some b else Memory.lookup m i

/-- `S[i] <- v` (R7): the element is listed in its place, so that the indices stay strictly rising. -/
def Memory.write : Memory → Nat → Byte → Memory
  | [], i, v => [(i, v)]
  | (a, b) :: m, i, v =>
    if i < a then (i, v) :: (a, b) :: m
    else if i = a then (i, v) :: m
    else (a, b) :: Memory.write m i v

/-- The canonical form: every index is below all that follow it. -/
def Memory.wf : Memory → Bool
  | [] => true
  | (a, _) :: m => m.all (fun c => a < c.1) && Memory.wf m

/-- `IBUF[i]` as DEC, ENC and the host read it; an unspecified element is a free value, the same on every read until it
is written (R39, U10). -/
def State.ibufAt (s : State) (i : Nat) : Byte := (Memory.lookup s.ibuf i).getD (Config.freeIbuf s.ibufGen i)

/-- `OBUF[i]` as the host reads it; an unspecified element is a free value (R21, R34, R39, U11 to U13). -/
def State.obufAt (s : State) (i : Nat) : Byte := (Memory.lookup s.obuf i).getD (Config.freeObuf s.obufGen i)

/-- `IBUF[i] <- v`, the effect of `WRB` (R32). -/
def State.writeIbuf (s : State) (i : Nat) (v : Byte) : State := { s with ibuf := Memory.write s.ibuf i v }

/-- `ILEN <- v`, the effect of `WR 2, v` (R31). -/
def State.writeIlen (s : State) (v : Word) : State := { s with ilen := v }

/-- A read returns a value to the host and changes nothing else (R39). -/
def State.give (s : State) (v : Word) : State := { s with received := v :: s.received }

/-- Every element of OBUF becomes unspecified (R21, R135). -/
def State.forgetObuf (s : State) : State := { s with obuf := [], obufGen := s.obufGen + 1 }

/-- The five working registers become unspecified (R135, U14). -/
def State.forgetWork (s : State) : State :=
  { s with
    acc := Config.freeAcc s.workGen
    nbits := Config.freeNbits s.workGen
    iidx := Config.freeIidx s.workGen
    oidx := Config.freeOidx s.workGen
    eff := Config.freeEff s.workGen
    workGen := s.workGen + 1 }

/-- The flag of a cause is set, and nothing else changes. This alone is the effect of `ERR_CMD` (R132). -/
def State.setFlag (s : State) (c : ErrCause) : State := { s with status := setErr s.status c }

/-- The effect of a fault `ERR_CAP`, `ERR_LEN` or `ERR_CHAR` (R135): the flag is set, `OLEN <- 0`, every element of OBUF
and the working registers become unspecified; IBUF, ILEN, the other flags, ALPHA and REV keep their values. -/
def State.raise (s : State) (c : ErrCause) : State := { ((s.setFlag c).forgetObuf).forgetWork with olen := 0#32 }

/-- The reset event (R150): every piece of state at the value of R25, both buffers unspecified anew, ALPHA and REV
unchanged. What is outside the block, the host's stream of transactions, is not touched. -/
def State.resetEvent (s : State) : State :=
  { State.reset with
    alpha := s.alpha
    rev := s.rev
    ibufGen := s.ibufGen + 1
    obufGen := s.obufGen + 1
    workGen := s.workGen
    pending := s.pending
    received := s.received }

/-- The value the host reads from register number `n` (R31): CMD returns 0x00, STATUS, ILEN, OLEN; no register above 3. -/
def State.regValue (s : State) : Nat → Option Word
  | 0 => some 0#32
  | 1 => some ((statusRead s.status).setWidth 32)
  | 2 => some s.ilen
  | 3 => some s.olen
  | _ => none

end Sys2Proof.Machine
end

