-- ==== Sys2Proof/Machine/Control.lean ====
section
/-! DEFINITION. The two commands that move no data: NOP and TBL (spec/40_table_and_control.md R70, R71). -/

namespace Sys2Proof.Machine

/-- `NOP`: nothing. It reads no state and writes no state, the sticky flags included (R70). -/
def execNop (s : State) : Host.Outcome State Fault Refusal := .next s

/-- `TBL`, the Reverse Table Builder: the table is a ROM that holds from reset what the first call would build, so every
call is a "subsequent call" and does nothing (R71). -/
def execTbl (s : State) : Host.Outcome State Fault Refusal := .next s

end Sys2Proof.Machine
end

