-- ==== Sys2Proof/Machine/Dec.lean ====
section
/-! DEFINITION. `DEC`, base64 text to bytes, and the sequencer's loops around the PACK core (spec/41_decode.md R75 to R86).
Lengths and indices inside the command are natural numbers (R8). Each loop is a function that recurses on a number the
rules bound the loop's turns by (R159). -/

namespace Sys2Proof.Machine

/-- Step 2, the trim: from `EFF = n`, as long as `EFF > 0` and `IBUF[EFF-1] = PAD`, `EFF <- EFF - 1` (R77). The test is
equality with the pad's code and does not go through REV (R78). -/
def trim (rd : Nat → Byte) (pad : Byte) : Nat → Nat
  | 0 => 0
  | n + 1 => if rd n = pad then trim rd pad n else n + 1

/-- Step 3, the output size: `floor(EFF * 6 / 8)`, exact (R79). -/
def decodedLen (eff : Nat) : Nat := eff * 6 / 8

/-- What the chunk loop carries from turn to turn: IIDX, OIDX, the local bit `bad`, and OBUF as written so far. -/
structure DecRun where
  iidx : Nat
  oidx : Nat
  bad : Bool
  out : Memory
  deriving DecidableEq, Repr

/-- The start of the chunk loop: `IIDX <- 0`, `OIDX <- 0`, `bad <- 0`, nothing written (R80). -/
def decStart : DecRun := { iidx := 0, oidx := 0, bad := false, out := [] }

/-- Step 6, one emit: if `OIDX < OLEN` then `OBUF[OIDX] <- b` and `OIDX <- OIDX + 1`; if not, nothing (R84). -/
def decEmit (olen : Nat) (b : Byte) (r : DecRun) : DecRun :=
  if r.oidx < olen then { r with oidx := r.oidx + 1, out := Memory.write r.out r.oidx b } else r

/-- The four characters at IIDX through the PACK core (R81, R83, R90). -/
def decPack (rd : Nat → Byte) (rev : RevTable) (r : DecRun) : Packed :=
  packCore rev (rd r.iidx) (rd (r.iidx + 1)) (rd (r.iidx + 2)) (rd (r.iidx + 3))

/-- `bad` after the validity check of one chunk (R82). -/
def decBad (eff : Nat) (p : Packed) (r : DecRun) : Bool :=
  r.bad || invalidAt eff r.iidx p.inv0 || invalidAt eff (r.iidx + 1) p.inv1 || invalidAt eff (r.iidx + 2) p.inv2 ||
    invalidAt eff (r.iidx + 3) p.inv3

/-- One turn of the chunk loop: lookup and pack (R81, R83), validity (R82), three emits in order (R84), the advance by 4
(R85). -/
def decTurn (rd : Nat → Byte) (rev : RevTable) (eff olen : Nat) (r : DecRun) : DecRun :=
  let p := decPack rd rev r
  let e := decEmit olen p.b2 (decEmit olen p.b1 (decEmit olen p.b0 r))
  { iidx := r.iidx + 4, oidx := e.oidx, bad := decBad eff p r, out := e.out }

/-- Step 4, the chunk loop: while `IIDX < EFF`, one turn (R80). The first argument bounds the turns. -/
def decLoop (rd : Nat → Byte) (rev : RevTable) (eff olen : Nat) : Nat → DecRun → DecRun
  | 0, r => r
  | n + 1, r => if r.iidx < eff then decLoop rd rev eff olen n (decTurn rd rev eff olen r) else r

/-- The turns of the chunk loop: `ceil(EFF / 4)` (R80). -/
def decTurns (eff : Nat) : Nat := (eff + 3) / 4

/-- The chunk loop from its start to its end. -/
def decRun (rd : Nat → Byte) (rev : RevTable) (eff : Nat) : DecRun :=
  decLoop rd rev eff (decodedLen eff) (decTurns eff) decStart

/-- EFF after the trim of the state's input (R77). -/
def State.effLen (s : State) : Nat := trim s.ibufAt (padOf s.alpha) s.ilen.toNat

/-- A DEC that completes (R86): OLEN, EFF, IIDX and OIDX as computed, OBUF what the loop wrote and unspecified elsewhere;
STATUS, ACC and NBITS unchanged, IBUF and ILEN never written (R40). -/
def State.decDone (s : State) (eff : Nat) (r : DecRun) : State :=
  { s.forgetObuf with
    obuf := r.out
    olen := BitVec.ofNat 32 (decodedLen eff)
    eff := BitVec.ofNat 32 eff
    iidx := BitVec.ofNat 32 r.iidx
    oidx := BitVec.ofNat 32 r.oidx }

/-- The end of DEC: `ERR_CHAR` if `bad`, else completion (R86). -/
def State.decEnd (s : State) (eff : Nat) (r : DecRun) : State := if r.bad then s.raise .char else s.decDone eff r

/-- `DEC` for a block of capacity `capIn`: the checks in the order of R137, then the trim and the chunk loop (R75). -/
def decWith (capIn : Nat) (s : State) : State :=
  if exceedsCap capIn s.ilen.toNat then s.raise .cap
  else if notWholeGroups s.ilen.toNat then s.raise .len
  else s.decEnd s.effLen (decRun s.ibufAt s.rev s.effLen)

/-- `DEC` (R75). It always ends (R159), so it always answers a next state. -/
def execDec (s : State) : Host.Outcome State Fault Refusal := .next (decWith Config.capIn s)

end Sys2Proof.Machine
end

