-- ==== Sys2Proof/Machine/Enc.lean ====
section
/-! DEFINITION. `ENC`, bytes to base64 text, and the sequencer's loops around the UNPACK core (spec/42_encode.md R100 to
R108). Lengths and indices inside the command are natural numbers (R8); ACC and NBITS are the registers' own bits. Each
loop recurses on a number the rules bound its turns by (R159). -/

namespace Sys2Proof.Machine

/-- What the loops carry from turn to turn: ACC, NBITS, IIDX, OIDX, and OBUF as written so far. -/
structure EncRun where
  acc : Word
  nbits : BitCount
  iidx : Nat
  oidx : Nat
  out : Memory
  deriving DecidableEq, Repr

/-- The start: `ACC <- 0`, `NBITS <- 0`, `IIDX <- 0`, `OIDX <- 0` (R101). -/
def encStart : EncRun := { acc := 0#32, nbits := 0#5, iidx := 0, oidx := 0, out := [] }

/-- One byte is taken in: ACC, IIDX and NBITS as R103 says. -/
def encTake (rd : Nat → Byte) (r : EncRun) : EncRun :=
  { r with acc := windowFill r.acc r.nbits (rd r.iidx), iidx := r.iidx + 1, nbits := countFill r.nbits }

/-- The fill: while `NBITS < 6` and `IIDX < ILEN`, take a byte in (R103). The first argument bounds the turns. -/
def encFill (rd : Nat → Byte) (ilen : Nat) : Nat → EncRun → EncRun
  | 0, r => r
  | n + 1, r => if needsFill r.nbits && r.iidx < ilen then encFill rd ilen n (encTake rd r) else r

/-- The turns that suffice for the fill: from any value of a 5-bit signed NBITS, three bytes bring it to 6 or more (in a
run of ENC it takes at most one byte, R103). -/
def encFillTurns : Nat := 3

/-- One character is sent out: `OBUF[OIDX] <- ALPHA[ACC >> 26]`, then the shift (R104, R105, R106). -/
def encSend (alpha : AlphaTable) (r : EncRun) : EncRun :=
  { r with
    out := Memory.write r.out r.oidx (alphaAt alpha (windowSelect r.acc))
    oidx := r.oidx + 1
    acc := windowShift r.acc
    nbits := countShift r.nbits }

/-- One turn of the outer loop: fill, then send (R103 to R106). -/
def encTurn (rd : Nat → Byte) (alpha : AlphaTable) (ilen : Nat) (r : EncRun) : EncRun :=
  encSend alpha (encFill rd ilen encFillTurns r)

/-- The condition of the outer loop: `IIDX < ILEN` or `NBITS > 0`, signed (R102). -/
def encGoesOn (ilen : Nat) (r : EncRun) : Bool := r.iidx < ilen || bitsRemain r.nbits

/-- The outer loop (R102). The first argument bounds the turns. -/
def encLoop (rd : Nat → Byte) (alpha : AlphaTable) (ilen : Nat) : Nat → EncRun → EncRun
  | 0, r => r
  | n + 1, r => if encGoesOn ilen r then encLoop rd alpha ilen n (encTurn rd alpha ilen r) else r

/-- The turns of the outer loop: at most `ceil(8 * ILEN / 6)` (R158, R159). -/
def encTurns (ilen : Nat) : Nat := (8 * ilen + 5) / 6

/-- The pad: while `OIDX mod 4 != 0`, `OBUF[OIDX] <- PAD`, `OIDX <- OIDX + 1` (R107). The first argument bounds the
turns. -/
def encPad (pad : Byte) : Nat → EncRun → EncRun
  | 0, r => r
  | n + 1, r =>
    if r.oidx % 4 ≠ 0 then encPad pad n { r with out := Memory.write r.out r.oidx pad, oidx := r.oidx + 1 } else r

/-- The turns that suffice for the pad loop from any OIDX (in a run of ENC it takes at most two, R107). -/
def encPadTurns : Nat := 3

/-- The outer loop and the pad loop, from the start to the end. -/
def encRun (rd : Nat → Byte) (alpha : AlphaTable) (ilen : Nat) : EncRun :=
  encPad (padOf alpha) encPadTurns (encLoop rd alpha ilen (encTurns ilen) encStart)

/-- An ENC that completes (R108): `OLEN <- OIDX`, the working registers it uses as the loops left them, OBUF what they
wrote and unspecified elsewhere; STATUS and EFF unchanged, IBUF and ILEN never written (R40). -/
def State.encDone (s : State) (r : EncRun) : State :=
  { s.forgetObuf with
    obuf := r.out
    olen := BitVec.ofNat 32 r.oidx
    acc := r.acc
    nbits := r.nbits
    iidx := BitVec.ofNat 32 r.iidx
    oidx := BitVec.ofNat 32 r.oidx }

/-- `ENC` for a block of capacity `capIn`: the one check, then the loops (R100). -/
def encWith (capIn : Nat) (s : State) : State :=
  if exceedsCap capIn s.ilen.toNat then s.raise .cap
  else s.encDone (encRun s.ibufAt s.alpha s.ilen.toNat)

/-- `ENC` (R100). It always ends (R159), so it always answers a next state. -/
def execEnc (s : State) : Host.Outcome State Fault Refusal := .next (encWith Config.capIn s)

end Sys2Proof.Machine
end

