-- ==== Sys2Proof/Machine/Transact.lean ====
section
/-! DEFINITION. The six transactions of the host (spec/20_memory.md R31 to R34, R39, R41, R42), and the host sequences that
the spec writes with them (spec/30_encoding.md R59, R60; spec/70_reset_and_hazards.md R153). -/

namespace Sys2Proof.Machine

/-- CMD is register number 0 (R31, R59). -/
abbrev regCmd : Nat := 0

/-- STATUS is register number 1 (R31, R59). -/
abbrev regStatus : Nat := 1

/-- ILEN is register number 2 (R31, R59). -/
abbrev regIlen : Nat := 2

/-- OLEN is register number 3 (R31, R59). -/
abbrev regOlen : Nat := 3

/-- A write of `v` to CMD: the command that `v` encodes runs to its end (R11, R41); a reserved value sets `ERR_CMD` and
does nothing else (R56, R132). -/
def runCommand (v : Byte) (s : State) : Host.Outcome State Fault Refusal :=
  match decode v with
  | .ok i => exec i s
  | .error _ => .next (s.setFlag .cmd)

/-- `WR n, v` (R31, R32): `v` is truncated to the register's width; a write to STATUS or OLEN is ignored; a register
number above 3 is refused (R34). -/
def State.writeReg (s : State) (n v : Nat) : Host.Outcome State Fault Refusal :=
  match n with
  | 0 => runCommand (BitVec.ofNat 8 v) s
  | 1 => .next s
  | 2 => .next (s.writeIlen (BitVec.ofNat 32 v))
  | 3 => .next s
  | n => .refused (.noSuchRegister n)

/-- `RD n` (R31, R32): no read has a side effect (R39); a register number above 3 is refused (R34). -/
def State.readReg (s : State) (n : Nat) : Host.Outcome State Fault Refusal :=
  match s.regValue n with
  | some v => .next (s.give v)
  | none => .refused (.noSuchRegister n)

/-- One transaction, from its start to its end (R32); the buffer transactions are refused outside the buffer (R34). -/
def transact (t : Transaction) (s : State) : Host.Outcome State Fault Refusal :=
  match t with
  | .wr n v => s.writeReg n v
  | .rd n => s.readReg n
  | .wrb i v => if i < Config.capIn then .next (s.writeIbuf i v) else .refused (.noSuchIbufElement i)
  | .rdbi i => if i < Config.capIn then .next (s.give ((s.ibufAt i).setWidth 32)) else .refused (.noSuchIbufElement i)
  | .rdb i => if i < Config.capOut then .next (s.give ((s.obufAt i).setWidth 32)) else .refused (.noSuchObufElement i)
  | .reset => .next s.resetEvent

/-- A bare mnemonic on a line: `WR CMD, <that mnemonic>` (R59). -/
def issue (i : Instr) : Transaction := .wr regCmd (encode i).toNat

/-- `WRB k, b_0`, `WRB k+1, b_1`, and so on (R60, R153). -/
def loadFrom : Nat → List Byte → List Transaction
  | _, [] => []
  | k, b :: bs => .wrb k b :: loadFrom (k + 1) bs

/-- The host sequence of one command on the input `b`, up to the read of OLEN: the elements, the length, the command,
`RD STATUS`, `RD OLEN` (R60, R153). -/
def callSequence (i : Instr) (b : List Byte) : List Transaction :=
  loadFrom 0 b ++ [.wr regIlen b.length, issue i, .rd regStatus, .rd regOlen]

/-- The pseudo-instruction `decode(s)` up to the read of OLEN (R60). -/
def decodeCall (str : List Byte) : List Transaction := callSequence .dec str

/-- The pseudo-instruction `encode(b)` up to the read of OLEN (R60). -/
def encodeCall (b : List Byte) : List Transaction := callSequence .enc b

/-- The rest of both pseudo-instructions: `RDB j` for `j` = 0 to `m - 1`, `m` what `RD OLEN` gave (R60). -/
def readBack (m : Nat) : List Transaction := (List.range m).map .rdb

end Sys2Proof.Machine
end

