-- ==== Sys2Proof/Machine/Step.lean ====
section
/-! DEFINITION. One step: the host's next transaction, whole (spec/20_memory.md R32, R41, R42). -/

namespace Sys2Proof.Machine

/-- One step takes the host's next transaction and performs it from its start to its end (R41, R42). With none left the
block is idle and holds its state (R145, R160). -/
def step (s : State) : Host.Outcome State Fault Refusal :=
  match s.pending with
  | [] => .next s
  | t :: rest => transact t { s with pending := rest }

/-- `s` with the command word `w` as the next thing the host writes to CMD. There is no instruction memory (R18): commands
reach the block as host writes to CMD, so this is where a step takes its next instruction from. -/
def State.withFetchWord (s : State) (nbits w : Nat) : State :=
  { s with pending := .wr regCmd (tableByte nbits w).toNat :: s.pending }

end Sys2Proof.Machine
end

