-- ==== Sys2Proof/Safety.lean ====
section
/-! DEFINITION. The terms that claims use: what a good state is (the invariants), the input a command reads and the result
it leaves, and the closed forms and string forms of the spec (spec/00_scope.md glossary, spec/41_decode.md R89,
spec/42_encode.md R110). -/

namespace Sys2Proof.Machine

/-! ## Good states -/

/-- The stored STATUS has its hardwired bits as R12 says: bit 0 is 1, bits 7:5 are 0. -/
def State.StatusHardwired (s : State) : Prop := statusRead s.status = s.status

/-- Both buffers are in canonical form and list no element beyond their capacity (R20, R21, R30). -/
def State.BuffersWf (s : State) : Prop :=
  Memory.wf s.ibuf = true ∧ Memory.wf s.obuf = true ∧
  (∀ a, (Memory.lookup s.ibuf a).isSome → a < Config.capIn) ∧
  (∀ a, (Memory.lookup s.obuf a).isSome → a < Config.capOut)

/-- The specified elements of OBUF are exactly those below OLEN (R14, R21). -/
def State.ObufFollowsOlen (s : State) : Prop := ∀ a, (Memory.lookup s.obuf a).isSome ↔ a < s.olen.toNat

/-- The ROMs: the alphabet meets R4, and REV holds what R66 to R68 give it. -/
def State.RomsBuilt (s : State) : Prop := alphabetWellFormed s.alpha = true ∧ s.rev = buildRev s.alpha

/-- The invariant of the block. -/
def State.Inv (s : State) : Prop :=
  s.StatusHardwired ∧ s.BuffersWf ∧ s.ObufFollowsOlen ∧ s.olen.toNat ≤ Config.capOut ∧ s.RomsBuilt

/-- What the codec needs of its two tables, and no more: the 65 codes pairwise different (R4), `REV[ALPHA[i]] = i` (R66),
and `INV = 1` for every other code, whatever its `VAL` bits are (R67, R68; U3 and U4 leave those bits open). -/
def TablesAgree (alpha : AlphaTable) (rev : RevTable) : Prop :=
  alphabetDistinct alpha = true ∧
  (∀ i : Sym, revAt rev (alphaAt alpha i) = i.setWidth 7) ∧
  (∀ c : Byte, (∀ i : Sym, alphaAt alpha i ≠ c) → revInv (revAt rev c) = true)

/-! ## Inputs and results -/

/-- The character at index `i` of the input is a data symbol: its REV entry has `INV = 0` (R57). -/
def State.symbolAt (s : State) (i : Nat) : Bool := !revInv (revAt s.rev (s.ibufAt i))

/-- A DEC of this input completes: it passes the checks of R133, R134 and R136. -/
def State.DecodesClean (s : State) : Prop :=
  s.ilen.toNat ≤ Config.capIn ∧ s.ilen.toNat % 4 = 0 ∧ ∀ i, i < s.effLen → s.symbolAt i = true

/-- The result of the last DEC or ENC: `OBUF[0 .. OLEN-1]` (R14, R21). -/
def State.result (s : State) : List Byte := (List.range s.olen.toNat).map s.obufAt

/-- The effect of `WRB k, b_0`, `WRB k+1, b_1`, and so on. -/
def State.loadAt : Nat → List Byte → State → State
  | _, [], s => s
  | k, b :: bs, s => State.loadAt (k + 1) bs (s.writeIbuf k b)

/-- The state with the input `b` in place: its elements in `IBUF[0 .. n-1]` and `ILEN = n` (R60, R153). -/
def State.loadInput (s : State) (b : List Byte) : State := (State.loadAt 0 b s).writeIlen (BitVec.ofNat 32 b.length)

/-- What `k` steps leave: the host's next `k` transactions one after another, up to the first that is refused. -/
def runSteps : Nat → State → Host.Outcome State Fault Refusal
  | 0, s => .next s
  | k + 1, s =>
    match step s with
    | .next t => runSteps k t
    | .fault f => .fault f
    | .refused r => .refused r

/-- The effect of a fault of DEC or ENC, field by field (R135): `t` is what `s` becomes when `c` is raised. -/
def FaultEffect (s t : State) (c : ErrCause) : Prop :=
  t.status = setErr s.status c ∧ t.olen = 0#32 ∧
  t.obufGen = s.obufGen + 1 ∧ (∀ j, t.obufAt j = Config.freeObuf t.obufGen j) ∧
  t.acc = Config.freeAcc s.workGen ∧ t.nbits = Config.freeNbits s.workGen ∧ t.iidx = Config.freeIidx s.workGen ∧
  t.oidx = Config.freeOidx s.workGen ∧ t.eff = Config.freeEff s.workGen ∧
  (∀ i, t.ibufAt i = s.ibufAt i) ∧ t.ilen = s.ilen ∧ t.alpha = s.alpha ∧ t.rev = s.rev ∧
  t.pending = s.pending ∧ t.received = s.received

/-! ## Closed forms -/

/-- The bits `val(0) ++ val(1) ++ ...` as one string, the first bit leftmost (R89). -/
def symbolBit (val : Nat → Sym) (n : Nat) : Bool := (val (n / 6)).getMsbD (n % 6)

/-- Bits `8j` to `8j + 7` of that string (R89). -/
def decodedByte (val : Nat → Sym) (j : Nat) : Byte :=
  BitVec.ofBoolListBE [symbolBit val (8 * j), symbolBit val (8 * j + 1), symbolBit val (8 * j + 2), symbolBit val (8 * j + 3),
    symbolBit val (8 * j + 4), symbolBit val (8 * j + 5), symbolBit val (8 * j + 6), symbolBit val (8 * j + 7)]

/-- `W_g = val(4g) ++ val(4g+1) ++ val(4g+2) ++ val(4g+3)` (R89). -/
def groupOf (val : Nat → Sym) (g : Nat) : GroupWord :=
  groupWord (val (4 * g)) (val (4 * g + 1)) (val (4 * g + 2)) (val (4 * g + 3))

/-- `W_g[23 - 8r : 16 - 8r]` with `g = floor(j / 3)` and `r = j mod 3` (R89). -/
def groupSlice (val : Nat → Sym) (j : Nat) : Byte := (groupOf val (j / 3)).extractLsb' (16 - 8 * (j % 3)) 8

/-- `val(i) = REV[IBUF[i]][5:0]` (R89). -/
def State.inputVal (s : State) (i : Nat) : Sym := revVal (revAt s.rev (s.ibufAt i))

/-- The bits `IBUF[0] ++ ... ++ IBUF[n-1]` as one string, the first bit leftmost, followed by zeros (R110). -/
def inputBit (rd : Nat → Byte) (n k : Nat) : Bool := k / 8 < n && (rd (k / 8)).getMsbD (k % 8)

/-- `v_j`, bits `6j` to `6j + 5` of that string (R110). -/
def encodedSym (rd : Nat → Byte) (n j : Nat) : Sym :=
  BitVec.ofBoolListBE [inputBit rd n (6 * j), inputBit rd n (6 * j + 1), inputBit rd n (6 * j + 2),
    inputBit rd n (6 * j + 3), inputBit rd n (6 * j + 4), inputBit rd n (6 * j + 5)]

/-- The number of pads that R110 and R125 give an input of `n` bytes: two, one or none as `n mod 3` is 1, 2 or 0. -/
def padsFor (n : Nat) : Nat := if n % 3 = 1 then 2 else if n % 3 = 2 then 1 else 0

/-! ## Strings -/

/-- The string that ENC writes for data symbols and pads. -/
def stringOf (alpha : AlphaTable) (data : List Sym) (pads : Nat) : List Byte :=
  data.map (alphaAt alpha) ++ List.replicate pads (padOf alpha)

/-- A well-formed string (glossary): length a multiple of 4; zero, one or two trailing pads; every character before them
a data symbol; effective length not congruent to 1 modulo 4. -/
def WellFormedString (data : List Sym) (pads : Nat) : Prop :=
  pads ≤ 2 ∧ (data.length + pads) % 4 = 0 ∧ data.length % 4 ≠ 1

/-- A canonical string (glossary): well-formed, and the last data symbol has zero in the bits that DEC drops, the low 4
with two pads, the low 2 with one. -/
def CanonicalString (data : List Sym) (pads : Nat) : Prop :=
  WellFormedString data pads ∧
  ∀ v, data.getLast? = some v → (pads = 2 → v.extractLsb' 0 4 = 0#4) ∧ (pads = 1 → v.extractLsb' 0 2 = 0#2)

end Sys2Proof.Machine
end

