-- ==== Sys2Proof/Certificates/Slice0/Obligations.lean ====
section
/-! DEFINITION. The statements for the provers. Each docstring names the rule of spec/ that the statement formalises or
rests on. -/

open Sys2Proof Sys2Proof.Machine

/-! ## Encoding and the command map -/

/-- R55, R56 (words written out from the table): the four commands, and four of the reserved words. -/
def Obligations.CommandWordsDecode : Prop :=
  decode 0b00000000#8 = .ok .nop ∧ decode 0b00000001#8 = .ok .tbl ∧ decode 0b00000010#8 = .ok .dec ∧
  decode 0b00000011#8 = .ok .enc ∧
  decode 0b00000100#8 = .error (.reservedCommand 0x04) ∧ decode 0b00000110#8 = .error (.reservedCommand 0x06) ∧
  decode 0b10000000#8 = .error (.reservedCommand 0x80) ∧ decode 0b11111111#8 = .error (.reservedCommand 0xFF)

/-- R45, R55, R56: decoding inverts encoding both ways, and exactly the words with `RSV = 0` are commands. -/
def Obligations.DecodeInvertsEncode : Prop :=
  (∀ i : Instr, i.wellFormed = true → decode (encode i) = .ok i ∧ decodeTableWord 8 (encode i).toNat = some i) ∧
  (∀ (v : Byte) (i : Instr), decode v = .ok i → encode i = v) ∧
  (∀ v : Byte, (∃ i, decode v = .ok i) ↔ v.extractLsb' 2 6 = 0#6) ∧
  (∀ v : Byte, commandWellFormed v = true ↔ v.extractLsb' 2 6 = 0#6)

/-! ## The step and the host's transactions -/

/-- R11, R32, R41: where the host's next transaction writes a word that decodes to `i` to CMD, the step is `exec i` on
the state with that transaction taken off the host's stream, and nothing else around it; and this is how a word of the
opcode table comes to run (`withFetchWord`). -/
def Obligations.StepRunsTheDecodedCommand : Prop :=
  (∀ (s : State) (v : Nat) (rest : List Transaction) (i : Instr),
    s.pending = .wr 0 v :: rest → decode (BitVec.ofNat 8 v) = .ok i → step s = exec i { s with pending := rest }) ∧
  (∀ (s : State) (nbits w : Nat) (i : Instr),
    decodeTableWord nbits w = some i → step (s.withFetchWord nbits w) = exec i s)

/-- R132: a write to CMD of a value with a non-zero bit among bits 7:2 sets `ERR_CMD` (mask 0x02) and does nothing
else, whatever its low two bits spell. -/
def Obligations.ReservedCommandSetsErrCmdOnly : Prop :=
  ∀ (s : State) (v : Nat) (rest : List Transaction),
    s.pending = .wr 0 v :: rest → (BitVec.ofNat 8 v).extractLsb' 2 6 ≠ 0#6 →
      step s = .next { s with pending := rest, status := s.status ||| 0x02#8 }

/-- R12, R13, R14, R31, R34: a write to STATUS or OLEN is ignored, a write to ILEN stores the value truncated to 32
bits, and a write to a register number above 3 is refused. -/
def Obligations.RegisterWrites : Prop :=
  ∀ (s : State) (n v : Nat) (rest : List Transaction), s.pending = .wr n v :: rest →
    (n = 1 ∨ n = 3 → step s = .next { s with pending := rest }) ∧
    (n = 2 → step s = .next { s with pending := rest, ilen := BitVec.ofNat 32 v }) ∧
    (3 < n → step s = .refused (.noSuchRegister n))

/-- R11, R12, R31, R34, R39: a read of CMD returns 0, of STATUS its value with bit 0 reading 1 and bits 7:5 reading 0,
of ILEN and OLEN theirs; nothing but what the host has received changes; a register number above 3 is refused. What a
read returns is kept zero-extended in the model's own list (notes/assumptions/8.md). -/
def Obligations.RegisterReads : Prop :=
  ∀ (s : State) (n : Nat) (rest : List Transaction), s.pending = .rd n :: rest →
    (n = 0 → step s = .next { s with pending := rest, received := 0#32 :: s.received }) ∧
    (n = 1 → ∃ b : Byte, b.getLsbD 0 = true ∧ b.extractLsb' 5 3 = 0#3 ∧ b.extractLsb' 1 4 = s.status.extractLsb' 1 4 ∧
      step s = .next { s with pending := rest, received := b.setWidth 32 :: s.received }) ∧
    (n = 2 → step s = .next { s with pending := rest, received := s.ilen :: s.received }) ∧
    (n = 3 → step s = .next { s with pending := rest, received := s.olen :: s.received }) ∧
    (3 < n → step s = .refused (.noSuchRegister n))

/-- R32, R34: the buffer transactions inside the buffers complete and return the element; outside they are refused.
What a read returns is kept zero-extended in the model's own list (notes/assumptions/8.md). -/
def Obligations.BufferTransactions : Prop :=
  ∀ (s : State) (i : Nat) (v : Byte) (rest : List Transaction),
    (s.pending = .wrb i v :: rest →
      (i < Config.capIn → step s = .next { s with pending := rest, ibuf := Memory.write s.ibuf i v }) ∧
      (Config.capIn ≤ i → step s = .refused (.noSuchIbufElement i))) ∧
    (s.pending = .rdbi i :: rest →
      (i < Config.capIn →
        step s = .next { s with pending := rest, received := (s.ibufAt i).setWidth 32 :: s.received }) ∧
      (Config.capIn ≤ i → step s = .refused (.noSuchIbufElement i))) ∧
    (s.pending = .rdb i :: rest →
      (i < Config.capOut →
        step s = .next { s with pending := rest, received := (s.obufAt i).setWidth 32 :: s.received }) ∧
      (Config.capOut ≤ i → step s = .refused (.noSuchObufElement i)))

/-- R32, R42: after `WRB i, v` element `i` of IBUF reads as `v`, every other element of IBUF and every element of OBUF
as before, and no register changes. -/
def Obligations.WrittenElementReadsBack : Prop :=
  ∀ (s : State) (i : Nat) (v : Byte), i < Config.capIn →
    ∃ t, transact (.wrb i v) s = .next t ∧ t.ibufAt i = v ∧ (∀ j, j ≠ i → t.ibufAt j = s.ibufAt j) ∧
      (∀ j, t.obufAt j = s.obufAt j) ∧ t.status = s.status ∧ t.ilen = s.ilen ∧ t.olen = s.olen ∧ t.acc = s.acc ∧
      t.nbits = s.nbits ∧ t.iidx = s.iidx ∧ t.oidx = s.oidx ∧ t.eff = s.eff ∧ t.alpha = s.alpha ∧ t.rev = s.rev ∧
      t.pending = s.pending ∧ t.received = s.received

/-- R39: a read that completes changes nothing but what the host has received, and the same read at once again returns
the same value. The list of what was received is the model's own (notes/assumptions/8.md). -/
def Obligations.ReadsHaveNoSideEffect : Prop :=
  ∀ (s t : State) (x : Transaction) (i : Nat), x = .rd i ∨ x = .rdbi i ∨ x = .rdb i → transact x s = .next t →
    ∃ v : Word, t = { s with received := v :: s.received } ∧
      transact x t = .next { s with received := v :: v :: s.received }

/-- R145, R160: with no transaction to come the block holds its state. That a step with an empty list of transactions
answers the same state is the model's choice (notes/assumptions/7.md). -/
def Obligations.IdleBlockHoldsItsState : Prop := ∀ s : State, s.pending = [] → step s = .next s

/-- R60, R153: the host sequence of one command, run step by step, puts the input in place, runs the command, and
returns STATUS and then OLEN to the host. The two ends of the host's stream are the model's own fields
(notes/assumptions/7.md and 8.md). -/
def Obligations.HostCallRunsTheCommand : Prop :=
  ∀ (s : State) (i : Instr) (b : List Byte) (rest : List Transaction),
    s.pending = callSequence i b ++ rest → b.length ≤ Config.capIn →
    ∃ t, exec i { s.loadInput b with pending := rest } = .next t ∧
      runSteps (b.length + 4) s =
        .next { t with received := t.olen :: (statusRead t.status).setWidth 32 :: s.received }

/-- R60: reading OBUF back, element after element, returns `OBUF[0 .. m-1]` and changes nothing else. The two ends of
the host's stream are the model's own fields (notes/assumptions/7.md and 8.md). -/
def Obligations.ReadBackReturnsTheElements : Prop :=
  ∀ (s : State) (m : Nat) (rest : List Transaction), s.pending = readBack m ++ rest → m ≤ Config.capOut →
    runSteps m s =
      .next { s with
        pending := rest
        received := ((List.range m).map fun j => (s.obufAt j).setWidth 32).reverse ++ s.received }

/-! ## Reset -/

/-- R25: the state after reset. An unspecified element is a free value (notes/assumptions/3.md and 4.md), and the ROMs'
contents are R53's default (notes/assumptions/2.md). -/
def Obligations.StateAfterReset : Prop :=
  State.reset.status = 0x01#8 ∧ State.reset.ilen = 0#32 ∧ State.reset.olen = 0#32 ∧ State.reset.acc = 0#32 ∧
  State.reset.nbits = 0#5 ∧ State.reset.iidx = 0#32 ∧ State.reset.oidx = 0#32 ∧ State.reset.eff = 0#32 ∧
  (∀ i, State.reset.ibufAt i = Config.freeIbuf 0 i) ∧ (∀ i, State.reset.obufAt i = Config.freeObuf 0 i) ∧
  State.reset.RomsBuilt

/-- R150: the reset event puts the registers at their reset values, leaves every element of both buffers unspecified (a
free value of a new generation) and ALPHA and REV unchanged. The free values and their generations are the model's
(notes/assumptions/3.md, 4.md and 6.md). -/
def Obligations.ResetTransaction : Prop :=
  ∀ (s : State) (rest : List Transaction), s.pending = .reset :: rest →
    ∃ t, step s = .next t ∧ t.status = 0x01#8 ∧ t.ilen = 0#32 ∧ t.olen = 0#32 ∧ t.acc = 0#32 ∧ t.nbits = 0#5 ∧
      t.iidx = 0#32 ∧ t.oidx = 0#32 ∧ t.eff = 0#32 ∧ (∀ i, t.ibufAt i = Config.freeIbuf (s.ibufGen + 1) i) ∧
      (∀ i, t.obufAt i = Config.freeObuf (s.obufGen + 1) i) ∧ t.alpha = s.alpha ∧ t.rev = s.rev ∧
      t.pending = rest ∧ t.received = s.received

/-! ## The tables -/

/-- R66: for a REV that is built from its alphabet, every data symbol's entry is its value with `INV = 0`, and an entry
with `INV = 0` leads back to its code. -/
def Obligations.ReverseTableInvertsAlphabet : Prop :=
  ∀ s : State, s.RomsBuilt →
    (∀ i : Sym, revAt s.rev (alphaAt s.alpha i) = i.setWidth 7 ∧ revInv (revAt s.rev (alphaAt s.alpha i)) = false ∧
      revVal (revAt s.rev (alphaAt s.alpha i)) = i) ∧
    (∀ c : Byte, revInv (revAt s.rev c) = false → alphaAt s.alpha (revVal (revAt s.rev c)) = c)

/-- R67, R68: the pad's entry and that of every code that is no data symbol are 0x40. -/
def Obligations.OtherCodesAreMarked : Prop :=
  ∀ s : State, s.RomsBuilt →
    revAt s.rev (padOf s.alpha) = 0x40#7 ∧
    ∀ c : Byte, (∀ i : Sym, alphaAt s.alpha i ≠ c) → revAt s.rev c = 0x40#7

/-- R53, R54: the default reverse table, transcribed entry by entry, is the one that R66 to R68 give the default
alphabet, and the default alphabet meets R4. The 58 entries the document does not fix are the spec's general knowledge:
this is the model's choice of R53's default (notes/assumptions/2.md). -/
def Obligations.DefaultTablesAgree : Prop :=
  defaultRev = buildRev defaultAlpha ∧ alphabetWellFormed defaultAlpha = true

/-- R69: no step writes ALPHA or REV. -/
def Obligations.TablesNeverChange : Prop :=
  ∀ s t : State, step s = .next t → t.alpha = s.alpha ∧ t.rev = s.rev

/-- R72: the lazily built table. `ensure()` twice is `ensure()` once; and a DEC through the table that it builds,
whatever the table held before, leaves the same as a DEC through the ROM, for every input that does not fault. -/
def Obligations.LazyTableDecodesLikeTheRom : Prop :=
  (∀ (alpha : AlphaTable) (l : LazyTable), lazyEnsure alpha (lazyEnsure alpha l) = lazyEnsure alpha l) ∧
  ∀ (s : State) (l : LazyTable), s.RomsBuilt → s.DecodesClean → l.built = false →
    ∃ t, exec .dec s = .next t ∧
      exec .dec { s with rev := (lazyEnsure s.alpha l).table } = .next { t with rev := (lazyEnsure s.alpha l).table }

/-- R3, R4, R79, R112: `4 <= CAP_IN`, `CAP_OUT = 4 * ceil(CAP_IN / 3) < 2^32`, and OBUF has room for the result of a
DEC and of an ENC of any input that fits. -/
def Obligations.CapacityBounds : Prop :=
  capacityWellFormed Config.capIn = true ∧ Config.capOut = 4 * ((Config.capIn + 2) / 3) ∧
  ∀ n, n ≤ Config.capIn → decodedLen n ≤ Config.capOut ∧ 4 * ((n + 2) / 3) ≤ Config.capOut

/-! ## NOP and TBL -/

/-- R70, R71: NOP and TBL complete from every state and change nothing, the sticky flags included. -/
def Obligations.NopAndTblChangeNothing : Prop := ∀ s : State, exec .nop s = .next s ∧ exec .tbl s = .next s

/-! ## Faults -/

/-- R133, R135: a DEC or ENC with `ILEN > CAP_IN` raises `ERR_CAP`, with the effect of R135 and no other. What R135
leaves unspecified is a free value (notes/assumptions/4.md and 5.md). -/
def Obligations.TooLongInputRaisesErrCap : Prop :=
  ∀ s : State, Config.capIn < s.ilen.toNat →
    (∃ t, exec .dec s = .next t ∧ FaultEffect s t .cap) ∧ (∃ t, exec .enc s = .next t ∧ FaultEffect s t .cap)

/-- R134, R135: a DEC with `ILEN <= CAP_IN` and `ILEN mod 4 != 0` raises `ERR_LEN`. What R135 leaves unspecified is a
free value (notes/assumptions/4.md and 5.md). -/
def Obligations.PartialGroupRaisesErrLen : Prop :=
  ∀ s : State, s.ilen.toNat ≤ Config.capIn → s.ilen.toNat % 4 ≠ 0 → ∃ t, exec .dec s = .next t ∧ FaultEffect s t .len

/-- R57, R135, R136: a DEC that passes both length checks and has a character below EFF with `INV = 1` raises
`ERR_CHAR`. What R135 leaves unspecified is a free value (notes/assumptions/4.md and 5.md). -/
def Obligations.InvalidCharacterRaisesErrChar : Prop :=
  ∀ (s : State) (i : Nat), s.ilen.toNat ≤ Config.capIn → s.ilen.toNat % 4 = 0 → i < s.effLen →
    revInv (revAt s.rev (s.ibufAt i)) = true → ∃ t, exec .dec s = .next t ∧ FaultEffect s t .char

/-- R137: a command raises at most one fault, the first check that fails in the order `ERR_CMD`, `ERR_CAP`, `ERR_LEN`,
`ERR_CHAR`; where none fails STATUS is unchanged. -/
def Obligations.FirstFailingCheckIsRaised : Prop :=
  ∀ (v : Byte) (s : State), ∃ t, runCommand v s = .next t ∧
    t.status =
      if v.extractLsb' 2 6 ≠ 0#6 then s.status ||| 0x02#8
      else if v.extractLsb' 1 1 = 0#1 then s.status
      else if Config.capIn < s.ilen.toNat then s.status ||| 0x04#8
      else if v.extractLsb' 0 1 = 0#1 ∧ s.ilen.toNat % 4 ≠ 0 then s.status ||| 0x08#8
      else if v.extractLsb' 0 1 = 0#1 ∧ ¬ (∀ i, i < s.effLen → s.symbolAt i = true) then s.status ||| 0x10#8
      else s.status

/-- R138: an error flag that is set stays set in every step but the reset event, with the commands, the reads and the
writes among them. -/
def Obligations.ErrorFlagsAreSticky : Prop :=
  ∀ (s t : State) (c : ErrCause), step s = .next t → (∀ rest, s.pending ≠ .reset :: rest) →
    errSet s.status c = true → errSet t.status c = true

/-! ## DEC -/

/-- R77: after the trim `EFF` is at most `ILEN`, every character from it on is `PAD`, and it is 0 or the character
before it is not `PAD`; no other number has these three properties. So a string of pads only trims to 0, however long
it is. -/
def Obligations.TrimStopsAtTheLastNonPad : Prop :=
  ∀ (s : State) (m : Nat),
    s.effLen = m ↔
      m ≤ s.ilen.toNat ∧ (∀ i, m ≤ i → i < s.ilen.toNat → s.ibufAt i = padOf s.alpha) ∧
      (m = 0 ∨ s.ibufAt (m - 1) ≠ padOf s.alpha)

/-- R89: the closed form of a DEC that completes, by group words and by the string of bits. -/
def Obligations.DecMeetsItsClosedForm : Prop :=
  ∀ s : State, s.DecodesClean → ∃ t, exec .dec s = .next t ∧ t.olen.toNat = 6 * s.effLen / 8 ∧
    ∀ j, j < t.olen.toNat → t.obufAt j = groupSlice s.inputVal j ∧ t.obufAt j = decodedByte s.inputVal j

/-- R86: the end of a DEC that completes: the registers it writes, OBUF unspecified from OLEN on, and everything else,
STATUS and IBUF and ILEN among it, as it was. The spec leaves OBUF from OLEN on open; the model reads it as a free
value. That is the model's choice (notes/assumptions/4.md), and so is that ACC and NBITS are kept between commands
(notes/assumptions/12.md). -/
def Obligations.DecEndState : Prop :=
  ∀ s : State, s.DecodesClean → ∃ t, exec .dec s = .next t ∧
    t.olen.toNat = decodedLen s.effLen ∧ t.eff.toNat = s.effLen ∧ t.iidx.toNat = 4 * ((s.effLen + 3) / 4) ∧
    t.oidx = t.olen ∧ t.obufGen = s.obufGen + 1 ∧
    (∀ j, t.olen.toNat ≤ j → t.obufAt j = Config.freeObuf t.obufGen j) ∧
    t.status = s.status ∧ t.ilen = s.ilen ∧ t.acc = s.acc ∧ t.nbits = s.nbits ∧ (∀ i, t.ibufAt i = s.ibufAt i) ∧
    t.alpha = s.alpha ∧ t.rev = s.rev ∧ t.ibufGen = s.ibufGen ∧ t.workGen = s.workGen ∧ t.pending = s.pending ∧
    t.received = s.received

/-- R123: the length law of DEC, for an input with exactly `p` trailing pads: EFF is `ILEN` less `p`, `OLEN` is
`floor(6 * EFF / 8)` with the table by `EFF mod 4`, and `3n/4 - p` for a well-formed string. -/
def Obligations.DecLengthLaw : Prop :=
  ∀ (s : State) (p : Nat), s.DecodesClean → p ≤ s.ilen.toNat →
    (∀ i, s.ilen.toNat - p ≤ i → i < s.ilen.toNat → s.ibufAt i = padOf s.alpha) →
    (p = s.ilen.toNat ∨ s.ibufAt (s.ilen.toNat - p - 1) ≠ padOf s.alpha) →
    ∃ t, exec .dec s = .next t ∧ t.eff.toNat = s.ilen.toNat - p ∧ t.olen.toNat = 6 * t.eff.toNat / 8 ∧
      (t.eff.toNat % 4 = 0 → t.olen.toNat = 3 * (t.eff.toNat / 4)) ∧
      (t.eff.toNat % 4 = 1 → t.olen.toNat = 3 * (t.eff.toNat / 4)) ∧
      (t.eff.toNat % 4 = 2 → t.olen.toNat = 3 * (t.eff.toNat / 4) + 1) ∧
      (t.eff.toNat % 4 = 3 → t.olen.toNat = 3 * (t.eff.toNat / 4) + 2) ∧
      (p ≤ 2 → t.olen.toNat + p = 3 * s.ilen.toNat / 4)

/-- R128: two runs of DEC with the same `ILEN` and the same elements below it give the same result, whatever lies
beyond and whatever entry with `INV = 1` the pad has. -/
def Obligations.DecIgnoresPadEntryAndBeyond : Prop :=
  ∀ s s' : State, s'.ilen = s.ilen → s'.alpha = s.alpha → (∀ i, i < s.ilen.toNat → s'.ibufAt i = s.ibufAt i) →
    (∀ c, c ≠ padOf s.alpha → revAt s'.rev c = revAt s.rev c) →
    revInv (revAt s.rev (padOf s.alpha)) = true → revInv (revAt s'.rev (padOf s.alpha)) = true →
    ∃ t t', exec .dec s = .next t ∧ exec .dec s' = .next t' ∧ t'.olen = t.olen ∧
      (∀ j, j < t.olen.toNat → t'.obufAt j = t.obufAt j) ∧
      ∃ m ∈ [0x00#8, 0x04#8, 0x08#8, 0x10#8], t.status = s.status ||| m ∧ t'.status = s'.status ||| m

/-- R68, R88 (the open `VAL` bits, U3 and U4): two runs of DEC on the same input through two reverse tables that agree
in `INV` everywhere and in `VAL` where `INV = 0` leave the same state but for the table. -/
def Obligations.DecIgnoresValOfNonSymbols : Prop :=
  ∀ (s : State) (rev' : RevTable),
    (∀ c, revInv (revAt rev' c) = revInv (revAt s.rev c)) →
    (∀ c, revInv (revAt s.rev c) = false → revAt rev' c = revAt s.rev c) →
    ∃ t, exec .dec s = .next t ∧ exec .dec { s with rev := rev' } = .next { t with rev := rev' }

/-! ## ENC -/

/-- R110: the closed form of an ENC: the characters by the string of bits, the pads, and the four values of each whole
3-byte group. -/
def Obligations.EncMeetsItsClosedForm : Prop :=
  ∀ s : State, s.ilen.toNat ≤ Config.capIn → ∃ t, exec .enc s = .next t ∧
    t.olen.toNat = 4 * ((s.ilen.toNat + 2) / 3) ∧
    (∀ j, j < (8 * s.ilen.toNat + 5) / 6 → t.obufAt j = alphaAt s.alpha (encodedSym s.ibufAt s.ilen.toNat j)) ∧
    (∀ j, (8 * s.ilen.toNat + 5) / 6 ≤ j → j < t.olen.toNat → t.obufAt j = padOf s.alpha) ∧
    (8 * s.ilen.toNat + 5) / 6 + padsFor s.ilen.toNat = t.olen.toNat ∧
    (∀ g, 3 * g + 2 < s.ilen.toNat →
      [t.obufAt (4 * g), t.obufAt (4 * g + 1), t.obufAt (4 * g + 2), t.obufAt (4 * g + 3)] =
        unpackCore s.alpha (s.ibufAt (3 * g)) (s.ibufAt (3 * g + 1)) (s.ibufAt (3 * g + 2)))

/-- R108: the end of an ENC that completes: the registers it writes, OBUF unspecified from OLEN on, and everything
else, STATUS, EFF, IBUF and ILEN among it, as it was. The spec leaves OBUF from OLEN on open; the model reads it as a
free value. That is the model's choice (notes/assumptions/4.md), and so is that EFF is kept between commands
(notes/assumptions/12.md). -/
def Obligations.EncEndState : Prop :=
  ∀ s : State, s.ilen.toNat ≤ Config.capIn → ∃ t, exec .enc s = .next t ∧
    t.iidx = s.ilen ∧ t.oidx = t.olen ∧ t.olen.toNat = 4 * ((s.ilen.toNat + 2) / 3) ∧ t.acc = 0#32 ∧
    t.nbits.toInt = (if s.ilen.toNat % 3 = 0 then 0 else if s.ilen.toNat % 3 = 2 then -2 else -4) ∧
    t.obufGen = s.obufGen + 1 ∧ (∀ j, t.olen.toNat ≤ j → t.obufAt j = Config.freeObuf t.obufGen j) ∧
    t.status = s.status ∧ t.eff = s.eff ∧ t.ilen = s.ilen ∧ (∀ i, t.ibufAt i = s.ibufAt i) ∧ t.alpha = s.alpha ∧
    t.rev = s.rev ∧ t.ibufGen = s.ibufGen ∧ t.workGen = s.workGen ∧ t.pending = s.pending ∧ t.received = s.received

/-- R112: an ENC of an input that fits completes whatever its bytes are, sets no flag, and its output fits OBUF. -/
def Obligations.EncNeverFaultsOnItsData : Prop :=
  ∀ (s : State) (b : List Byte), b.length ≤ Config.capIn → ∃ t, exec .enc (s.loadInput b) = .next t ∧
    t.status = s.status ∧ t.olen.toNat = 4 * ((b.length + 2) / 3) ∧ t.olen.toNat ≤ Config.capOut

/-- R124: the length law of ENC. -/
def Obligations.EncLengthLaw : Prop :=
  ∀ s : State, s.ilen.toNat ≤ Config.capIn → ∃ t, exec .enc s = .next t ∧
    t.olen.toNat = 4 * ((s.ilen.toNat + 2) / 3) ∧ t.olen.toNat % 4 = 0

/-- R125: the padding law of ENC: the last `padsFor ILEN` characters are pads (two, one or none), and no other is. -/
def Obligations.EncPaddingLaw : Prop :=
  ∀ s : State, alphabetDistinct s.alpha = true → s.ilen.toNat ≤ Config.capIn → ∃ t, exec .enc s = .next t ∧
    ∀ j, j < t.olen.toNat → (t.obufAt j = padOf s.alpha ↔ t.olen.toNat - padsFor s.ilen.toNat ≤ j)

/-- R113: the selected index is below 64, and in an output of ENC a pad is followed by pads only. -/
def Obligations.NoDataSymbolAfterPad : Prop :=
  (∀ acc : Word, (windowSelect acc).toNat < 64) ∧
  ∀ s : State, alphabetDistinct s.alpha = true → s.ilen.toNat ≤ Config.capIn → ∃ t, exec .enc s = .next t ∧
    ∀ j k, j < k → k < t.olen.toNat → t.obufAt j = padOf s.alpha → t.obufAt k = padOf s.alpha

/-- R109: the invariants of the outer loop, after any number of turns from its start: NBITS is one of -4, -2, 0, 2, 4,
6; every bit of ACC below the buffered ones is 0 (all of ACC where NBITS is negative, and then the input is used up);
the buffered bits are the next unsent bits of the input; and at a fill NBITS is 0, 2 or 4 and becomes 8, 10 or 12. -/
def Obligations.WindowLoopInvariants : Prop :=
  ∀ (rd : Nat → Byte) (alpha : AlphaTable) (n k : Nat) (r : EncRun), r = encLoop rd alpha n k encStart →
    (r.nbits.toInt = -4 ∨ r.nbits.toInt = -2 ∨ r.nbits.toInt = 0 ∨ r.nbits.toInt = 2 ∨ r.nbits.toInt = 4 ∨
      r.nbits.toInt = 6) ∧
    (∀ p : Nat, r.nbits.toInt ≤ (p : Int) → r.acc.getMsbD p = false) ∧
    (r.nbits.toInt < 0 → r.iidx = n ∧ n % 3 ≠ 0) ∧
    (∀ p : Nat, (p : Int) < r.nbits.toInt → r.acc.getMsbD p = inputBit rd n (6 * r.oidx + p)) ∧
    (r.nbits.toInt < 6 → r.iidx < n →
      (r.nbits.toInt = 0 ∨ r.nbits.toInt = 2 ∨ r.nbits.toInt = 4) ∧
      (encFill rd n encFillTurns r).nbits.toInt = r.nbits.toInt + 8 ∧
      (encFill rd n encFillTurns r).iidx = r.iidx + 1)

/-! ## The two cores -/

/-- R49: the group word is the concatenation of its four symbol values, and its three bytes are cut from them bit by
bit. -/
def Obligations.GroupWordIsConcatenation : Prop :=
  ∀ s0 s1 s2 s3 : Sym,
    groupWord s0 s1 s2 s3 = s0 ++ s1 ++ s2 ++ s3 ∧
    groupByte0 (groupWord s0 s1 s2 s3) = s0 ++ s1.extractLsb' 4 2 ∧
    groupByte1 (groupWord s0 s1 s2 s3) = s1.extractLsb' 0 4 ++ s2.extractLsb' 2 4 ∧
    groupByte2 (groupWord s0 s1 s2 s3) = s2.extractLsb' 0 2 ++ s3

/-- R50, R103: a byte enters the window just below the `n` buffered bits, `n` one of 0, 2, 4, by a shift of 24, 22 or
20; the buffered bits stay and the bits below stay zero. -/
def Obligations.WindowFillPlacesTheByte : Prop :=
  ∀ (acc : Word) (nbits : BitCount) (b : Byte) (n : Nat), n = 0 ∨ n = 2 ∨ n = 4 → nbits.toInt = (n : Int) →
    (∀ p, n ≤ p → acc.getMsbD p = false) →
    windowOffset nbits = 24 - n ∧ (windowFill acc nbits b).extractLsb' (24 - n) 8 = b ∧
    (∀ p, p < n → (windowFill acc nbits b).getMsbD p = acc.getMsbD p) ∧
    (∀ p, n + 8 ≤ p → (windowFill acc nbits b).getMsbD p = false)

/-- R104, R106: the select is bits 31:26 of ACC, unsigned; the shift drops them and brings six zeros in at the bottom.
-/
def Obligations.WindowSelectsAndShifts : Prop :=
  ∀ acc : Word, (windowSelect acc).toNat = acc.toNat / 2 ^ 26 ∧ windowSelect acc = acc.extractLsb' 26 6 ∧
    (windowShift acc).toNat = acc.toNat * 2 ^ 6 % 2 ^ 32 ∧
    acc = windowSelect acc ++ (windowShift acc).extractLsb' 6 26

/-- R111: four turns of the UNPACK core from an empty window, with three bytes to come, send the four characters of the
group and leave the window empty again. -/
def Obligations.UnpackCoreSendsTheGroup : Prop :=
  ∀ (rd : Nat → Byte) (alpha : AlphaTable) (n : Nat) (r t : EncRun), r.acc = 0#32 → r.nbits = 0#5 → r.iidx + 3 ≤ n →
    t = encTurn rd alpha n (encTurn rd alpha n (encTurn rd alpha n (encTurn rd alpha n r))) →
    t.acc = 0#32 ∧ t.nbits = 0#5 ∧ t.iidx = r.iidx + 3 ∧ t.oidx = r.oidx + 4 ∧
    [Memory.lookup t.out r.oidx, Memory.lookup t.out (r.oidx + 1), Memory.lookup t.out (r.oidx + 2),
      Memory.lookup t.out (r.oidx + 3)] = (unpackCore alpha (rd r.iidx) (rd (r.iidx + 1)) (rd (r.iidx + 2))).map some ∧
    (∀ j, j < r.oidx ∨ r.oidx + 4 ≤ j → Memory.lookup t.out j = Memory.lookup r.out j)

/-! ## The laws of the codec -/

/-- R120: the round trip from bytes, for every byte buffer whose string fits IBUF. -/
def Obligations.RoundTripFromBytes : Prop :=
  ∀ (s : State) (b : List Byte), TablesAgree s.alpha s.rev →
    4 * ((b.length + 2) / 3) ≤ Config.capIn →
    ∃ t u, exec .enc (s.loadInput b) = .next t ∧ t.status = s.status ∧
      exec .dec (t.loadInput t.result) = .next u ∧ u.status = s.status ∧ u.result = b

/-- R121: the round trip from text, for canonical strings. -/
def Obligations.RoundTripFromCanonicalText : Prop :=
  ∀ (s : State) (data : List Sym) (pads : Nat), TablesAgree s.alpha s.rev → CanonicalString data pads →
    data.length + pads ≤ Config.capIn →
    ∃ t u, exec .dec (s.loadInput (stringOf s.alpha data pads)) = .next t ∧ t.status = s.status ∧
      exec .enc (t.loadInput t.result) = .next u ∧ u.status = s.status ∧ u.result = stringOf s.alpha data pads

/-- R122: what DEC drops is not restored. Two well-formed strings that differ only in the dropped bits of their last
data symbol decode to the same bytes; and with `ALPHA` as R4 pins it, `"TR=="` decodes to `[0x4D]`, whose encoding is
`"TQ=="`. -/
def Obligations.DroppedBitsAreNotRestored : Prop :=
  (∀ (s : State) (data : List Sym) (v w : Sym) (pads : Nat), TablesAgree s.alpha s.rev →
    WellFormedString (data ++ [v]) pads → data.length + 1 + pads ≤ Config.capIn →
    (pads = 2 ∧ v.extractLsb' 4 2 = w.extractLsb' 4 2) ∨ (pads = 1 ∧ v.extractLsb' 2 4 = w.extractLsb' 2 4) →
    ∃ t u, exec .dec (s.loadInput (stringOf s.alpha (data ++ [v]) pads)) = .next t ∧ t.status = s.status ∧
      exec .dec (s.loadInput (stringOf s.alpha (data ++ [w]) pads)) = .next u ∧ u.status = s.status ∧
      u.result = t.result) ∧
  (∀ s : State, s.RomsBuilt →
    ∃ t u, exec .dec (s.loadInput (stringOf s.alpha [19#6, 17#6] 2)) = .next t ∧ t.result = [0x4D#8] ∧
      exec .enc (t.loadInput t.result) = .next u ∧ u.result = [0x54#8, 0x51#8, 0x3D#8, 0x3D#8])

/-- R126: determinism and purity: what DEC and ENC give is a function of `ILEN`, `IBUF[0 .. ILEN-1]` and the tables. -/
def Obligations.ResultDependsOnInputOnly : Prop :=
  ∀ (s s' : State) (i : Instr), i = .dec ∨ i = .enc → s'.ilen = s.ilen → s'.alpha = s.alpha → s'.rev = s.rev →
    (∀ k, k < s.ilen.toNat → s'.ibufAt k = s.ibufAt k) →
    ∃ t t', exec i s = .next t ∧ exec i s' = .next t' ∧ t'.olen = t.olen ∧
      (∀ j, j < t.olen.toNat → t'.obufAt j = t.obufAt j) ∧
      ∃ m ∈ [0x00#8, 0x04#8, 0x08#8, 0x10#8], t.status = s.status ||| m ∧ t'.status = s'.status ||| m

/-- R127: the output of ENC never faults DEC. -/
def Obligations.EncOutputNeverFaultsDec : Prop :=
  ∀ (s : State) (b : List Byte), TablesAgree s.alpha s.rev → 4 * ((b.length + 2) / 3) ≤ Config.capIn →
    ∃ t u, exec .enc (s.loadInput b) = .next t ∧ t.olen.toNat % 4 = 0 ∧ (t.loadInput t.result).DecodesClean ∧
      exec .dec (t.loadInput t.result) = .next u ∧ u.status = t.status

/-! ## Frames and whole-machine rules -/

/-- R40: no command, faulted or not, the reserved ones included, changes IBUF or ILEN. -/
def Obligations.CommandsKeepTheirInput : Prop :=
  ∀ (v : Byte) (s : State), ∃ t, runCommand v s = .next t ∧ t.ilen = s.ilen ∧ ∀ i, t.ibufAt i = s.ibufAt i

/-- The frame of DEC and ENC over all outcomes (R33, R40, R86, R108, R135): ILEN, IBUF, ALPHA, REV and the host's
stream are unchanged; of STATUS only `ERR_CAP`, and for DEC `ERR_LEN` and `ERR_CHAR`, may change; and EFF is unchanged
by an ENC, ACC and NBITS by a DEC, that raises nothing. OBUF is a destination of both: from OLEN on it holds no
specified element. That the working registers are kept is the model's choice (notes/assumptions/12.md). -/
def Obligations.DecAndEncFrame : Prop :=
  ∀ s : State,
    (∃ t, exec .dec s = .next t ∧ t.ilen = s.ilen ∧ (∀ i, t.ibufAt i = s.ibufAt i) ∧ t.alpha = s.alpha ∧ t.rev = s.rev ∧
      t.ibufGen = s.ibufGen ∧ t.pending = s.pending ∧ t.received = s.received ∧
      (∀ k, k ≠ 2 → k ≠ 3 → k ≠ 4 → t.status.getLsbD k = s.status.getLsbD k) ∧
      (s.DecodesClean → t.status = s.status ∧ t.acc = s.acc ∧ t.nbits = s.nbits) ∧
      ∀ j, t.olen.toNat ≤ j → Memory.lookup t.obuf j = none) ∧
    (∃ t, exec .enc s = .next t ∧ t.ilen = s.ilen ∧ (∀ i, t.ibufAt i = s.ibufAt i) ∧ t.alpha = s.alpha ∧ t.rev = s.rev ∧
      t.ibufGen = s.ibufGen ∧ t.pending = s.pending ∧ t.received = s.received ∧
      (∀ k, k ≠ 2 → t.status.getLsbD k = s.status.getLsbD k) ∧
      (s.ilen.toNat ≤ Config.capIn → t.status = s.status ∧ t.eff = s.eff) ∧
      ∀ j, t.olen.toNat ≤ j → Memory.lookup t.obuf j = none)

/-- R13, R33, R40: ILEN changes only in a write to register 2 or a reset, IBUF only in a `WRB` or a reset, OLEN and
OBUF only in a write to CMD or a reset. -/
def Obligations.OnlyTheNamedTransactionsWrite : Prop :=
  ∀ s t : State, step s = .next t → (∀ rest, s.pending ≠ .reset :: rest) →
    ((∀ v rest, s.pending ≠ .wr 2 v :: rest) → t.ilen = s.ilen) ∧
    ((∀ i v rest, s.pending ≠ .wrb i v :: rest) → ∀ i, t.ibufAt i = s.ibufAt i) ∧
    ((∀ v rest, s.pending ≠ .wr 0 v :: rest) → t.olen = s.olen ∧ ∀ j, t.obufAt j = s.obufAt j)

/-- R159: every command ends. Each loop, given at least the turns that the model allows it, has reached its end: more
turns change nothing and its condition no longer holds. -/
def Obligations.CommandsTerminate : Prop :=
  (∀ (rd : Nat → Byte) (rev : RevTable) (eff n : Nat), decTurns eff ≤ n →
    decLoop rd rev eff (decodedLen eff) n decStart = decRun rd rev eff ∧ ¬ (decRun rd rev eff).iidx < eff) ∧
  (∀ (rd : Nat → Byte) (alpha : AlphaTable) (len n : Nat), encTurns len ≤ n →
    encLoop rd alpha len n encStart = encLoop rd alpha len (encTurns len) encStart ∧
    encGoesOn len (encLoop rd alpha len (encTurns len) encStart) = false) ∧
  (∀ (rd : Nat → Byte) (len n : Nat) (r : EncRun), encFillTurns ≤ n →
    encFill rd len n r = encFill rd len encFillTurns r ∧
    ¬ (needsFill (encFill rd len encFillTurns r).nbits = true ∧ (encFill rd len encFillTurns r).iidx < len)) ∧
  (∀ (pad : Byte) (n : Nat) (r : EncRun), encPadTurns ≤ n →
    encPad pad n r = encPad pad encPadTurns r ∧ (encPad pad encPadTurns r).oidx % 4 = 0) ∧
  (∀ (i : Instr) (s : State), ∃ t, exec i s = .next t)

/-- The invariant holds at reset (R12, R20, R21, R25, R66 to R68). The ROMs' contents are R53's default
(notes/assumptions/2.md). -/
def Obligations.InvariantHoldsAtReset : Prop := State.reset.Inv

/-- Every step keeps the invariant: STATUS has its hardwired bits (R12), both buffers are canonical and within their
capacity (R30), the specified elements of OBUF are exactly those below OLEN (R14, R21), OLEN fits OBUF (R79, R112), and
the ROMs are what R65 to R68 say (R69). -/
def Obligations.EveryStepKeepsTheInvariant : Prop := ∀ s t : State, s.Inv → step s = .next t → t.Inv
end

