-- ==== Sys2Proof/Laws/Memory.lean ====
section
/-! SUPPORT. The laws of the buffers' one data structure: reading after writing, and the canonical form. -/

namespace Sys2Proof.Machine

@[simp] theorem Memory.lookup_nil (i : Nat) : Memory.lookup [] i = none := rfl

/-- Reading an element gives the byte just written to it, and every other element is as it was. -/
theorem Memory.lookup_write (m : Memory) (i j : Nat) (v : Byte) :
    Memory.lookup (Memory.write m i v) j = if j = i then some v else Memory.lookup m j := by
  induction m with
  | nil => simp [Memory.write, Memory.lookup]
  | cons c m ih =>
    obtain ⟨a, b⟩ := c
    unfold Memory.write
    split
    · simp [Memory.lookup]
    · split
      · subst_vars
        simp only [Memory.lookup]
        split <;> simp_all
      · simp only [Memory.lookup, ih]
        by_cases h : j = a <;> by_cases h' : j = i <;> simp_all

/-- A write lists the element it writes and no other new one. -/
theorem Memory.mem_write {m : Memory} {i : Nat} {v : Byte} {c : Host.Cell} (h : c ∈ Memory.write m i v) :
    c = (i, v) ∨ c ∈ m := by
  induction m with
  | nil => simpa [Memory.write] using h
  | cons d m ih =>
    obtain ⟨a, b⟩ := d
    unfold Memory.write at h
    split at h
    · simpa using h
    · split at h
      · simp only [List.mem_cons] at h ⊢
        tauto
      · simp only [List.mem_cons] at h ⊢
        rcases h with h | h
        · exact .inr (.inl h)
        · rcases ih h with h | h
          · exact .inl h
          · exact .inr (.inr h)

/-- The canonical form, read off one cell at a time. -/
theorem Memory.wf_cons (a : Nat) (b : Byte) (m : Memory) :
    Memory.wf ((a, b) :: m) = true ↔ (∀ c ∈ m, a < c.1) ∧ Memory.wf m = true := by
  simp [Memory.wf]

/-- Every write keeps the canonical form. -/
theorem Memory.wf_write {m : Memory} (h : Memory.wf m = true) (i : Nat) (v : Byte) :
    Memory.wf (Memory.write m i v) = true := by
  induction m with
  | nil => simp [Memory.write, Memory.wf]
  | cons d m ih =>
    obtain ⟨a, b⟩ := d
    obtain ⟨hlt, hm⟩ := (Memory.wf_cons a b m).1 h
    unfold Memory.write
    split
    · refine (Memory.wf_cons _ _ _).2 ⟨fun c hc => ?_, h⟩
      rcases List.mem_cons.1 hc with rfl | hc
      · assumption
      · have := hlt c hc
        omega
    · split
      · subst_vars
        exact (Memory.wf_cons _ _ _).2 ⟨hlt, hm⟩
      · refine (Memory.wf_cons _ _ _).2 ⟨fun c hc => ?_, ih hm⟩
        rcases Memory.mem_write hc with rfl | hc
        · show a < i
          omega
        · exact hlt c hc

theorem Memory.lookup_none_of_lt {m : Memory} {a i : Nat} (h : ∀ c ∈ m, a < c.1) (hi : i ≤ a) :
    Memory.lookup m i = none := by
  induction m with
  | nil => rfl
  | cons d m ih =>
    have h1 := h d (by simp)
    simp only [Memory.lookup]
    rw [if_neg (by omega)]
    exact ih fun c hc => h c (by simp [hc])

/-- Two buffers in canonical form that read alike are equal. -/
theorem Memory.ext {m n : Memory} (hm : Memory.wf m = true) (hn : Memory.wf n = true)
    (h : ∀ i, Memory.lookup m i = Memory.lookup n i) : m = n := by
  induction m generalizing n with
  | nil =>
    cases n with
    | nil => rfl
    | cons d n =>
      have := h d.1
      simp [Memory.lookup] at this
  | cons c m ih =>
    obtain ⟨a, b⟩ := c
    obtain ⟨hlt, hm'⟩ := (Memory.wf_cons a b m).1 hm
    cases n with
    | nil =>
      have := h a
      simp [Memory.lookup] at this
    | cons d n =>
      obtain ⟨a', b'⟩ := d
      obtain ⟨hlt', hn'⟩ := (Memory.wf_cons a' b' n).1 hn
      have e : a = a' := by
        have h1 := h a
        have h2 := h a'
        simp only [Memory.lookup, if_true] at h1 h2
        by_contra hne
        rw [if_neg hne] at h1
        rw [if_neg (Ne.symm hne)] at h2
        rcases Nat.lt_or_ge a a' with hl | hl
        · rw [Memory.lookup_none_of_lt hlt' (by omega)] at h1
          exact absurd h1 (by simp)
        · rw [Memory.lookup_none_of_lt hlt (by omega)] at h2
          exact absurd h2 (by simp)
      subst e
      have hb : b = b' := by simpa [Memory.lookup] using h a
      subst hb
      rw [ih hm' hn' fun i => ?_]
      by_cases hi : i = a
      · rw [hi, Memory.lookup_none_of_lt hlt (Nat.le_refl _), Memory.lookup_none_of_lt hlt' (Nat.le_refl _)]
      · simpa [Memory.lookup, hi] using h i

/-- `Filled f n out`: the elements below `n` hold `f`, and no other element is specified. -/
def Filled (f : Nat → Byte) (n : Nat) (out : Memory) : Prop :=
  Memory.wf out = true ∧ ∀ j, Memory.lookup out j = if j < n then some (f j) else none

theorem Filled.empty (f : Nat → Byte) : Filled f 0 [] := ⟨rfl, fun j => by simp⟩

/-- Writing the next element of a filled buffer fills it by one more. -/
theorem Filled.next {f : Nat → Byte} {n : Nat} {out : Memory} {b : Byte} (h : Filled f n out) (hb : b = f n) :
    Filled f (n + 1) (Memory.write out n b) := by
  refine ⟨Memory.wf_write h.1 _ _, fun j => ?_⟩
  rw [Memory.lookup_write, h.2]
  split
  · subst_vars
    simp
  · have : j < n + 1 ↔ j < n := by omega
    simp [this]

/-- What a filled buffer holds is determined by what it is filled with. -/
theorem Filled.unique {f g : Nat → Byte} {n : Nat} {m m' : Memory} (h : Filled f n m) (h' : Filled g n m')
    (e : ∀ j, j < n → f j = g j) : m = m' := by
  refine Memory.ext h.1 h'.1 fun i => ?_
  rw [h.2, h'.2]
  by_cases hi : i < n
  · simp [hi, e i hi]
  · simp [hi]

end Sys2Proof.Machine
end

