-- ==== Sys2Proof/Laws/State.lean ====
section
/-! SUPPORT. One lemma per field per update of State, each true by rfl, so that no later proof unfolds a record update. -/

namespace Sys2Proof.Machine

variable (s : State)

@[simp] theorem State.writeIbuf_status (i : Nat) (v : Byte) : (s.writeIbuf i v).status = s.status := rfl
@[simp] theorem State.writeIbuf_ilen (i : Nat) (v : Byte) : (s.writeIbuf i v).ilen = s.ilen := rfl
@[simp] theorem State.writeIbuf_olen (i : Nat) (v : Byte) : (s.writeIbuf i v).olen = s.olen := rfl
@[simp] theorem State.writeIbuf_acc (i : Nat) (v : Byte) : (s.writeIbuf i v).acc = s.acc := rfl
@[simp] theorem State.writeIbuf_nbits (i : Nat) (v : Byte) : (s.writeIbuf i v).nbits = s.nbits := rfl
@[simp] theorem State.writeIbuf_iidx (i : Nat) (v : Byte) : (s.writeIbuf i v).iidx = s.iidx := rfl
@[simp] theorem State.writeIbuf_oidx (i : Nat) (v : Byte) : (s.writeIbuf i v).oidx = s.oidx := rfl
@[simp] theorem State.writeIbuf_eff (i : Nat) (v : Byte) : (s.writeIbuf i v).eff = s.eff := rfl
@[simp] theorem State.writeIbuf_ibuf (i : Nat) (v : Byte) : (s.writeIbuf i v).ibuf = Memory.write s.ibuf i v := rfl
@[simp] theorem State.writeIbuf_obuf (i : Nat) (v : Byte) : (s.writeIbuf i v).obuf = s.obuf := rfl
@[simp] theorem State.writeIbuf_alpha (i : Nat) (v : Byte) : (s.writeIbuf i v).alpha = s.alpha := rfl
@[simp] theorem State.writeIbuf_rev (i : Nat) (v : Byte) : (s.writeIbuf i v).rev = s.rev := rfl
@[simp] theorem State.writeIbuf_ibufGen (i : Nat) (v : Byte) : (s.writeIbuf i v).ibufGen = s.ibufGen := rfl
@[simp] theorem State.writeIbuf_obufGen (i : Nat) (v : Byte) : (s.writeIbuf i v).obufGen = s.obufGen := rfl
@[simp] theorem State.writeIbuf_workGen (i : Nat) (v : Byte) : (s.writeIbuf i v).workGen = s.workGen := rfl
@[simp] theorem State.writeIbuf_pending (i : Nat) (v : Byte) : (s.writeIbuf i v).pending = s.pending := rfl
@[simp] theorem State.writeIbuf_received (i : Nat) (v : Byte) : (s.writeIbuf i v).received = s.received := rfl

@[simp] theorem State.writeIlen_status (v : Word) : (s.writeIlen v).status = s.status := rfl
@[simp] theorem State.writeIlen_ilen (v : Word) : (s.writeIlen v).ilen = v := rfl
@[simp] theorem State.writeIlen_olen (v : Word) : (s.writeIlen v).olen = s.olen := rfl
@[simp] theorem State.writeIlen_acc (v : Word) : (s.writeIlen v).acc = s.acc := rfl
@[simp] theorem State.writeIlen_nbits (v : Word) : (s.writeIlen v).nbits = s.nbits := rfl
@[simp] theorem State.writeIlen_iidx (v : Word) : (s.writeIlen v).iidx = s.iidx := rfl
@[simp] theorem State.writeIlen_oidx (v : Word) : (s.writeIlen v).oidx = s.oidx := rfl
@[simp] theorem State.writeIlen_eff (v : Word) : (s.writeIlen v).eff = s.eff := rfl
@[simp] theorem State.writeIlen_ibuf (v : Word) : (s.writeIlen v).ibuf = s.ibuf := rfl
@[simp] theorem State.writeIlen_obuf (v : Word) : (s.writeIlen v).obuf = s.obuf := rfl
@[simp] theorem State.writeIlen_alpha (v : Word) : (s.writeIlen v).alpha = s.alpha := rfl
@[simp] theorem State.writeIlen_rev (v : Word) : (s.writeIlen v).rev = s.rev := rfl
@[simp] theorem State.writeIlen_ibufGen (v : Word) : (s.writeIlen v).ibufGen = s.ibufGen := rfl
@[simp] theorem State.writeIlen_obufGen (v : Word) : (s.writeIlen v).obufGen = s.obufGen := rfl
@[simp] theorem State.writeIlen_workGen (v : Word) : (s.writeIlen v).workGen = s.workGen := rfl
@[simp] theorem State.writeIlen_pending (v : Word) : (s.writeIlen v).pending = s.pending := rfl
@[simp] theorem State.writeIlen_received (v : Word) : (s.writeIlen v).received = s.received := rfl

@[simp] theorem State.give_status (v : Word) : (s.give v).status = s.status := rfl
@[simp] theorem State.give_ilen (v : Word) : (s.give v).ilen = s.ilen := rfl
@[simp] theorem State.give_olen (v : Word) : (s.give v).olen = s.olen := rfl
@[simp] theorem State.give_acc (v : Word) : (s.give v).acc = s.acc := rfl
@[simp] theorem State.give_nbits (v : Word) : (s.give v).nbits = s.nbits := rfl
@[simp] theorem State.give_iidx (v : Word) : (s.give v).iidx = s.iidx := rfl
@[simp] theorem State.give_oidx (v : Word) : (s.give v).oidx = s.oidx := rfl
@[simp] theorem State.give_eff (v : Word) : (s.give v).eff = s.eff := rfl
@[simp] theorem State.give_ibuf (v : Word) : (s.give v).ibuf = s.ibuf := rfl
@[simp] theorem State.give_obuf (v : Word) : (s.give v).obuf = s.obuf := rfl
@[simp] theorem State.give_alpha (v : Word) : (s.give v).alpha = s.alpha := rfl
@[simp] theorem State.give_rev (v : Word) : (s.give v).rev = s.rev := rfl
@[simp] theorem State.give_ibufGen (v : Word) : (s.give v).ibufGen = s.ibufGen := rfl
@[simp] theorem State.give_obufGen (v : Word) : (s.give v).obufGen = s.obufGen := rfl
@[simp] theorem State.give_workGen (v : Word) : (s.give v).workGen = s.workGen := rfl
@[simp] theorem State.give_pending (v : Word) : (s.give v).pending = s.pending := rfl
@[simp] theorem State.give_received (v : Word) : (s.give v).received = v :: s.received := rfl

@[simp] theorem State.forgetObuf_status : (s.forgetObuf).status = s.status := rfl
@[simp] theorem State.forgetObuf_ilen : (s.forgetObuf).ilen = s.ilen := rfl
@[simp] theorem State.forgetObuf_olen : (s.forgetObuf).olen = s.olen := rfl
@[simp] theorem State.forgetObuf_acc : (s.forgetObuf).acc = s.acc := rfl
@[simp] theorem State.forgetObuf_nbits : (s.forgetObuf).nbits = s.nbits := rfl
@[simp] theorem State.forgetObuf_iidx : (s.forgetObuf).iidx = s.iidx := rfl
@[simp] theorem State.forgetObuf_oidx : (s.forgetObuf).oidx = s.oidx := rfl
@[simp] theorem State.forgetObuf_eff : (s.forgetObuf).eff = s.eff := rfl
@[simp] theorem State.forgetObuf_ibuf : (s.forgetObuf).ibuf = s.ibuf := rfl
@[simp] theorem State.forgetObuf_obuf : (s.forgetObuf).obuf = [] := rfl
@[simp] theorem State.forgetObuf_alpha : (s.forgetObuf).alpha = s.alpha := rfl
@[simp] theorem State.forgetObuf_rev : (s.forgetObuf).rev = s.rev := rfl
@[simp] theorem State.forgetObuf_ibufGen : (s.forgetObuf).ibufGen = s.ibufGen := rfl
@[simp] theorem State.forgetObuf_obufGen : (s.forgetObuf).obufGen = s.obufGen + 1 := rfl
@[simp] theorem State.forgetObuf_workGen : (s.forgetObuf).workGen = s.workGen := rfl
@[simp] theorem State.forgetObuf_pending : (s.forgetObuf).pending = s.pending := rfl
@[simp] theorem State.forgetObuf_received : (s.forgetObuf).received = s.received := rfl

@[simp] theorem State.forgetWork_status : (s.forgetWork).status = s.status := rfl
@[simp] theorem State.forgetWork_ilen : (s.forgetWork).ilen = s.ilen := rfl
@[simp] theorem State.forgetWork_olen : (s.forgetWork).olen = s.olen := rfl
@[simp] theorem State.forgetWork_acc : (s.forgetWork).acc = Config.freeAcc s.workGen := rfl
@[simp] theorem State.forgetWork_nbits : (s.forgetWork).nbits = Config.freeNbits s.workGen := rfl
@[simp] theorem State.forgetWork_iidx : (s.forgetWork).iidx = Config.freeIidx s.workGen := rfl
@[simp] theorem State.forgetWork_oidx : (s.forgetWork).oidx = Config.freeOidx s.workGen := rfl
@[simp] theorem State.forgetWork_eff : (s.forgetWork).eff = Config.freeEff s.workGen := rfl
@[simp] theorem State.forgetWork_ibuf : (s.forgetWork).ibuf = s.ibuf := rfl
@[simp] theorem State.forgetWork_obuf : (s.forgetWork).obuf = s.obuf := rfl
@[simp] theorem State.forgetWork_alpha : (s.forgetWork).alpha = s.alpha := rfl
@[simp] theorem State.forgetWork_rev : (s.forgetWork).rev = s.rev := rfl
@[simp] theorem State.forgetWork_ibufGen : (s.forgetWork).ibufGen = s.ibufGen := rfl
@[simp] theorem State.forgetWork_obufGen : (s.forgetWork).obufGen = s.obufGen := rfl
@[simp] theorem State.forgetWork_workGen : (s.forgetWork).workGen = s.workGen + 1 := rfl
@[simp] theorem State.forgetWork_pending : (s.forgetWork).pending = s.pending := rfl
@[simp] theorem State.forgetWork_received : (s.forgetWork).received = s.received := rfl

@[simp] theorem State.setFlag_status (c : ErrCause) : (s.setFlag c).status = setErr s.status c := rfl
@[simp] theorem State.setFlag_ilen (c : ErrCause) : (s.setFlag c).ilen = s.ilen := rfl
@[simp] theorem State.setFlag_olen (c : ErrCause) : (s.setFlag c).olen = s.olen := rfl
@[simp] theorem State.setFlag_acc (c : ErrCause) : (s.setFlag c).acc = s.acc := rfl
@[simp] theorem State.setFlag_nbits (c : ErrCause) : (s.setFlag c).nbits = s.nbits := rfl
@[simp] theorem State.setFlag_iidx (c : ErrCause) : (s.setFlag c).iidx = s.iidx := rfl
@[simp] theorem State.setFlag_oidx (c : ErrCause) : (s.setFlag c).oidx = s.oidx := rfl
@[simp] theorem State.setFlag_eff (c : ErrCause) : (s.setFlag c).eff = s.eff := rfl
@[simp] theorem State.setFlag_ibuf (c : ErrCause) : (s.setFlag c).ibuf = s.ibuf := rfl
@[simp] theorem State.setFlag_obuf (c : ErrCause) : (s.setFlag c).obuf = s.obuf := rfl
@[simp] theorem State.setFlag_alpha (c : ErrCause) : (s.setFlag c).alpha = s.alpha := rfl
@[simp] theorem State.setFlag_rev (c : ErrCause) : (s.setFlag c).rev = s.rev := rfl
@[simp] theorem State.setFlag_ibufGen (c : ErrCause) : (s.setFlag c).ibufGen = s.ibufGen := rfl
@[simp] theorem State.setFlag_obufGen (c : ErrCause) : (s.setFlag c).obufGen = s.obufGen := rfl
@[simp] theorem State.setFlag_workGen (c : ErrCause) : (s.setFlag c).workGen = s.workGen := rfl
@[simp] theorem State.setFlag_pending (c : ErrCause) : (s.setFlag c).pending = s.pending := rfl
@[simp] theorem State.setFlag_received (c : ErrCause) : (s.setFlag c).received = s.received := rfl

@[simp] theorem State.raise_status (c : ErrCause) : (s.raise c).status = setErr s.status c := rfl
@[simp] theorem State.raise_ilen (c : ErrCause) : (s.raise c).ilen = s.ilen := rfl
@[simp] theorem State.raise_olen (c : ErrCause) : (s.raise c).olen = 0#32 := rfl
@[simp] theorem State.raise_acc (c : ErrCause) : (s.raise c).acc = Config.freeAcc s.workGen := rfl
@[simp] theorem State.raise_nbits (c : ErrCause) : (s.raise c).nbits = Config.freeNbits s.workGen := rfl
@[simp] theorem State.raise_iidx (c : ErrCause) : (s.raise c).iidx = Config.freeIidx s.workGen := rfl
@[simp] theorem State.raise_oidx (c : ErrCause) : (s.raise c).oidx = Config.freeOidx s.workGen := rfl
@[simp] theorem State.raise_eff (c : ErrCause) : (s.raise c).eff = Config.freeEff s.workGen := rfl
@[simp] theorem State.raise_ibuf (c : ErrCause) : (s.raise c).ibuf = s.ibuf := rfl
@[simp] theorem State.raise_obuf (c : ErrCause) : (s.raise c).obuf = [] := rfl
@[simp] theorem State.raise_alpha (c : ErrCause) : (s.raise c).alpha = s.alpha := rfl
@[simp] theorem State.raise_rev (c : ErrCause) : (s.raise c).rev = s.rev := rfl
@[simp] theorem State.raise_ibufGen (c : ErrCause) : (s.raise c).ibufGen = s.ibufGen := rfl
@[simp] theorem State.raise_obufGen (c : ErrCause) : (s.raise c).obufGen = s.obufGen + 1 := rfl
@[simp] theorem State.raise_workGen (c : ErrCause) : (s.raise c).workGen = s.workGen + 1 := rfl
@[simp] theorem State.raise_pending (c : ErrCause) : (s.raise c).pending = s.pending := rfl
@[simp] theorem State.raise_received (c : ErrCause) : (s.raise c).received = s.received := rfl

@[simp] theorem State.resetEvent_status : (s.resetEvent).status = 0x01#8 := rfl
@[simp] theorem State.resetEvent_ilen : (s.resetEvent).ilen = 0#32 := rfl
@[simp] theorem State.resetEvent_olen : (s.resetEvent).olen = 0#32 := rfl
@[simp] theorem State.resetEvent_acc : (s.resetEvent).acc = 0#32 := rfl
@[simp] theorem State.resetEvent_nbits : (s.resetEvent).nbits = 0#5 := rfl
@[simp] theorem State.resetEvent_iidx : (s.resetEvent).iidx = 0#32 := rfl
@[simp] theorem State.resetEvent_oidx : (s.resetEvent).oidx = 0#32 := rfl
@[simp] theorem State.resetEvent_eff : (s.resetEvent).eff = 0#32 := rfl
@[simp] theorem State.resetEvent_ibuf : (s.resetEvent).ibuf = [] := rfl
@[simp] theorem State.resetEvent_obuf : (s.resetEvent).obuf = [] := rfl
@[simp] theorem State.resetEvent_alpha : (s.resetEvent).alpha = s.alpha := rfl
@[simp] theorem State.resetEvent_rev : (s.resetEvent).rev = s.rev := rfl
@[simp] theorem State.resetEvent_ibufGen : (s.resetEvent).ibufGen = s.ibufGen + 1 := rfl
@[simp] theorem State.resetEvent_obufGen : (s.resetEvent).obufGen = s.obufGen + 1 := rfl
@[simp] theorem State.resetEvent_workGen : (s.resetEvent).workGen = s.workGen := rfl
@[simp] theorem State.resetEvent_pending : (s.resetEvent).pending = s.pending := rfl
@[simp] theorem State.resetEvent_received : (s.resetEvent).received = s.received := rfl

@[simp] theorem State.decDone_status (n : Nat) (r : DecRun) : (s.decDone n r).status = s.status := rfl
@[simp] theorem State.decDone_ilen (n : Nat) (r : DecRun) : (s.decDone n r).ilen = s.ilen := rfl
@[simp] theorem State.decDone_olen (n : Nat) (r : DecRun) : (s.decDone n r).olen = BitVec.ofNat 32 (decodedLen n) := rfl
@[simp] theorem State.decDone_acc (n : Nat) (r : DecRun) : (s.decDone n r).acc = s.acc := rfl
@[simp] theorem State.decDone_nbits (n : Nat) (r : DecRun) : (s.decDone n r).nbits = s.nbits := rfl
@[simp] theorem State.decDone_iidx (n : Nat) (r : DecRun) : (s.decDone n r).iidx = BitVec.ofNat 32 r.iidx := rfl
@[simp] theorem State.decDone_oidx (n : Nat) (r : DecRun) : (s.decDone n r).oidx = BitVec.ofNat 32 r.oidx := rfl
@[simp] theorem State.decDone_eff (n : Nat) (r : DecRun) : (s.decDone n r).eff = BitVec.ofNat 32 n := rfl
@[simp] theorem State.decDone_ibuf (n : Nat) (r : DecRun) : (s.decDone n r).ibuf = s.ibuf := rfl
@[simp] theorem State.decDone_obuf (n : Nat) (r : DecRun) : (s.decDone n r).obuf = r.out := rfl
@[simp] theorem State.decDone_alpha (n : Nat) (r : DecRun) : (s.decDone n r).alpha = s.alpha := rfl
@[simp] theorem State.decDone_rev (n : Nat) (r : DecRun) : (s.decDone n r).rev = s.rev := rfl
@[simp] theorem State.decDone_ibufGen (n : Nat) (r : DecRun) : (s.decDone n r).ibufGen = s.ibufGen := rfl
@[simp] theorem State.decDone_obufGen (n : Nat) (r : DecRun) : (s.decDone n r).obufGen = s.obufGen + 1 := rfl
@[simp] theorem State.decDone_workGen (n : Nat) (r : DecRun) : (s.decDone n r).workGen = s.workGen := rfl
@[simp] theorem State.decDone_pending (n : Nat) (r : DecRun) : (s.decDone n r).pending = s.pending := rfl
@[simp] theorem State.decDone_received (n : Nat) (r : DecRun) : (s.decDone n r).received = s.received := rfl

@[simp] theorem State.encDone_status (r : EncRun) : (s.encDone r).status = s.status := rfl
@[simp] theorem State.encDone_ilen (r : EncRun) : (s.encDone r).ilen = s.ilen := rfl
@[simp] theorem State.encDone_olen (r : EncRun) : (s.encDone r).olen = BitVec.ofNat 32 r.oidx := rfl
@[simp] theorem State.encDone_acc (r : EncRun) : (s.encDone r).acc = r.acc := rfl
@[simp] theorem State.encDone_nbits (r : EncRun) : (s.encDone r).nbits = r.nbits := rfl
@[simp] theorem State.encDone_iidx (r : EncRun) : (s.encDone r).iidx = BitVec.ofNat 32 r.iidx := rfl
@[simp] theorem State.encDone_oidx (r : EncRun) : (s.encDone r).oidx = BitVec.ofNat 32 r.oidx := rfl
@[simp] theorem State.encDone_eff (r : EncRun) : (s.encDone r).eff = s.eff := rfl
@[simp] theorem State.encDone_ibuf (r : EncRun) : (s.encDone r).ibuf = s.ibuf := rfl
@[simp] theorem State.encDone_obuf (r : EncRun) : (s.encDone r).obuf = r.out := rfl
@[simp] theorem State.encDone_alpha (r : EncRun) : (s.encDone r).alpha = s.alpha := rfl
@[simp] theorem State.encDone_rev (r : EncRun) : (s.encDone r).rev = s.rev := rfl
@[simp] theorem State.encDone_ibufGen (r : EncRun) : (s.encDone r).ibufGen = s.ibufGen := rfl
@[simp] theorem State.encDone_obufGen (r : EncRun) : (s.encDone r).obufGen = s.obufGen + 1 := rfl
@[simp] theorem State.encDone_workGen (r : EncRun) : (s.encDone r).workGen = s.workGen := rfl
@[simp] theorem State.encDone_pending (r : EncRun) : (s.encDone r).pending = s.pending := rfl
@[simp] theorem State.encDone_received (r : EncRun) : (s.encDone r).received = s.received := rfl

end Sys2Proof.Machine
end

