-- ==== Sys2Proof/Laws/Dec.lean ====
section
/-! SUPPORT. What DEC's shared operations do, said once each: the trim, one emit, one turn of the chunk loop, the whole
loop, and the three ways the command ends. -/

namespace Sys2Proof.Machine

/-! ## The trim (R77) -/

theorem trim_le (rd : Nat → Byte) (pad : Byte) (n : Nat) : trim rd pad n ≤ n := by
  induction n with
  | zero => exact Nat.le_refl _
  | succ n ih =>
    unfold trim
    split <;> omega

theorem trim_pads (rd : Nat → Byte) (pad : Byte) (n i : Nat) (h : trim rd pad n ≤ i) (hi : i < n) : rd i = pad := by
  induction n with
  | zero => omega
  | succ n ih =>
    unfold trim at h
    split at h
    · by_cases hin : i = n
      · subst hin
        assumption
      · exact ih h (by omega)
    · omega

theorem trim_stops (rd : Nat → Byte) (pad : Byte) (n : Nat) (h : 0 < trim rd pad n) : rd (trim rd pad n - 1) ≠ pad := by
  induction n with
  | zero => simp [trim] at h
  | succ n ih =>
    unfold trim at h ⊢
    split at h
    · rename_i hp
      simpa [hp] using ih h
    · rename_i hp
      simp [hp]

/-- The three facts determine the result of the trim. -/
theorem trim_unique {rd : Nat → Byte} {pad : Byte} {n m : Nat} (hm : m ≤ n) (hp : ∀ i, m ≤ i → i < n → rd i = pad)
    (hs : 0 < m → rd (m - 1) ≠ pad) : trim rd pad n = m := by
  induction n with
  | zero => simp [trim]; omega
  | succ n ih =>
    unfold trim
    by_cases h : m = n + 1
    · subst h
      have := hs (by omega)
      simp only [Nat.add_sub_cancel] at this
      simp [this]
    · have hn : rd n = pad := hp n (by omega) (by omega)
      simp only [hn, if_true]
      exact ih (by omega) (fun i h1 h2 => hp i h1 (by omega))

/-- The trim reads no element at or above its start. -/
theorem trim_congr {rd rd' : Nat → Byte} (pad : Byte) (n : Nat) (h : ∀ i, i < n → rd i = rd' i) :
    trim rd pad n = trim rd' pad n := by
  induction n with
  | zero => rfl
  | succ n ih =>
    unfold trim
    rw [h n (by omega), ih (fun i hi => h i (by omega))]

/-! ## The chunk loop (R80 to R85) -/

/-- The symbol values that a DEC reading `rd` through `rev` sees. -/
def symbolsOf (rd : Nat → Byte) (rev : RevTable) (i : Nat) : Sym := revVal (revAt rev (rd i))

/-- After `k` turns: IIDX is `4k`, OIDX is `3k` cut off at OLEN, `bad` says whether an invalid character was met below EFF,
and OBUF holds the slices of the group words so far, cut off at OLEN. -/
def DecAfter (rd : Nat → Byte) (rev : RevTable) (eff olen k : Nat) (r : DecRun) : Prop :=
  r.iidx = 4 * k ∧ r.oidx = min (3 * k) olen ∧
  (r.bad = true ↔ ∃ i, i < 4 * k ∧ i < eff ∧ revInv (revAt rev (rd i)) = true) ∧
  Filled (groupSlice (symbolsOf rd rev)) (min (3 * k) olen) r.out

theorem decAfter_start (rd : Nat → Byte) (rev : RevTable) (eff olen : Nat) : DecAfter rd rev eff olen 0 decStart := by
  refine ⟨rfl, by simp [decStart], ?_, by simp only [Nat.mul_zero, Nat.zero_min]; exact Filled.empty _⟩
  simp [decStart]

/-- One emit (R84): the next slice goes out unless the output is full; nothing else changes. -/
theorem decEmit_next {f : Nat → Byte} {olen m : Nat} {b : Byte} {r : DecRun} (ho : r.oidx = min m olen)
    (hf : Filled f (min m olen) r.out) (hb : b = f m) :
    (decEmit olen b r).oidx = min (m + 1) olen ∧ Filled f (min (m + 1) olen) (decEmit olen b r).out ∧
      (decEmit olen b r).iidx = r.iidx ∧ (decEmit olen b r).bad = r.bad := by
  unfold decEmit
  by_cases h : m < olen
  · rw [Nat.min_eq_left (by omega)] at ho hf
    rw [Nat.min_eq_left (by omega)]
    rw [if_pos (by omega)]
    refine ⟨by simp [ho], ?_, rfl, rfl⟩
    simpa [ho] using hf.next hb
  · rw [Nat.min_eq_right (by omega)] at ho hf
    rw [Nat.min_eq_right (by omega), if_neg (by omega)]
    exact ⟨ho, hf, rfl, rfl⟩

/-- The three bytes of the chunk at `4k` are the slices `3k`, `3k + 1`, `3k + 2` (R89). -/
theorem groupSlice_chunk (val : Nat → Sym) (k : Nat) :
    groupSlice val (3 * k) = groupByte0 (groupOf val k) ∧ groupSlice val (3 * k + 1) = groupByte1 (groupOf val k) ∧
      groupSlice val (3 * k + 2) = groupByte2 (groupOf val k) := by
  have h0 : 3 * k / 3 = k := by omega
  have h1 : (3 * k + 1) / 3 = k := by omega
  have h2 : (3 * k + 2) / 3 = k := by omega
  have m0 : 3 * k % 3 = 0 := by omega
  have m1 : (3 * k + 1) % 3 = 1 := by omega
  have m2 : (3 * k + 2) % 3 = 2 := by omega
  simp [groupSlice, groupByte0, groupByte1, groupByte2, h0, h1, h2, m0, m1, m2]

/-- One turn of the chunk loop. -/
theorem decTurn_after {rd : Nat → Byte} {rev : RevTable} {eff olen k : Nat} {r : DecRun}
    (h : DecAfter rd rev eff olen k r) : DecAfter rd rev eff olen (k + 1) (decTurn rd rev eff olen r) := by
  obtain ⟨hi, ho, hb, hf⟩ := h
  obtain ⟨s0, s1, s2⟩ := groupSlice_chunk (symbolsOf rd rev) k
  have e0 : (decPack rd rev r).b0 = groupSlice (symbolsOf rd rev) (3 * k) := by rw [s0]; simp [decPack, packCore, hi, groupOf, symbolsOf]
  have e1 : (decPack rd rev r).b1 = groupSlice (symbolsOf rd rev) (3 * k + 1) := by rw [s1]; simp [decPack, packCore, hi, groupOf, symbolsOf]
  have e2 : (decPack rd rev r).b2 = groupSlice (symbolsOf rd rev) (3 * k + 2) := by rw [s2]; simp [decPack, packCore, hi, groupOf, symbolsOf]
  obtain ⟨o1, f1, -, -⟩ := decEmit_next ho hf e0
  obtain ⟨o2, f2, -, -⟩ := decEmit_next o1 f1 e1
  obtain ⟨o3, f3, -, -⟩ := decEmit_next o2 f2 e2
  refine ⟨by simp [decTurn, hi]; omega, o3, ?_, f3⟩
  simp only [decTurn, decBad, decPack, packCore, invalidAt, hi, Bool.or_eq_true, Bool.and_eq_true, decide_eq_true_eq, hb]
  constructor
  · rintro ((((⟨i, h1, h2, h3⟩ | ⟨h2, h3⟩) | ⟨h2, h3⟩) | ⟨h2, h3⟩) | ⟨h2, h3⟩)
    · exact ⟨i, by omega, h2, h3⟩
    · exact ⟨4 * k, by omega, h2, h3⟩
    · exact ⟨4 * k + 1, by omega, h2, h3⟩
    · exact ⟨4 * k + 2, by omega, h2, h3⟩
    · exact ⟨4 * k + 3, by omega, h2, h3⟩
  · rintro ⟨i, h1, h2, h3⟩
    by_cases c : i < 4 * k
    · exact .inl (.inl (.inl (.inl ⟨i, c, h2, h3⟩)))
    · have : i = 4 * k ∨ i = 4 * k + 1 ∨ i = 4 * k + 2 ∨ i = 4 * k + 3 := by omega
      rcases this with rfl | rfl | rfl | rfl
      · exact .inl (.inl (.inl (.inr ⟨h2, h3⟩)))
      · exact .inl (.inl (.inr ⟨h2, h3⟩))
      · exact .inl (.inr ⟨h2, h3⟩)
      · exact .inr ⟨h2, h3⟩

/-- The loop from `k` turns to its end. -/
theorem decLoop_after {rd : Nat → Byte} {rev : RevTable} {eff olen : Nat} (n : Nat) {k : Nat} {r : DecRun}
    (h : DecAfter rd rev eff olen k r) (hn : k + n = decTurns eff) :
    DecAfter rd rev eff olen (decTurns eff) (decLoop rd rev eff olen n r) := by
  induction n generalizing k r with
  | zero =>
    have : k = decTurns eff := by omega
    subst this
    exact h
  | succ n ih =>
    have hk : r.iidx < eff := by
      rw [h.1]
      unfold decTurns at hn
      omega
    simp only [decLoop, hk, if_true]
    exact ih (decTurn_after h) (by omega)

theorem decRun_after (rd : Nat → Byte) (rev : RevTable) (eff : Nat) :
    DecAfter rd rev eff (decodedLen eff) (decTurns eff) (decRun rd rev eff) :=
  decLoop_after _ (decAfter_start ..) (by simp)

/-- The chunk loop, whole: IIDX and OIDX at the end (R86, R87), when `bad` is set (R82), and the bytes emitted (R89). -/
theorem decRun_spec (rd : Nat → Byte) (rev : RevTable) (eff : Nat) :
    (decRun rd rev eff).iidx = 4 * decTurns eff ∧ (decRun rd rev eff).oidx = decodedLen eff ∧
      ((decRun rd rev eff).bad = true ↔ ∃ i, i < eff ∧ revInv (revAt rev (rd i)) = true) ∧
      Filled (groupSlice (symbolsOf rd rev)) (decodedLen eff) (decRun rd rev eff).out := by
  obtain ⟨hi, ho, hb, hf⟩ := decRun_after rd rev eff
  have hm : min (3 * decTurns eff) (decodedLen eff) = decodedLen eff := by
    unfold decTurns decodedLen
    omega
  rw [hm] at ho hf
  refine ⟨hi, ho, hb.trans ⟨fun ⟨i, _, h2, h3⟩ => ⟨i, h2, h3⟩, fun ⟨i, h2, h3⟩ => ⟨i, ?_, h2, h3⟩⟩, hf⟩
  unfold decTurns
  omega

/-! ## The command -/

/-- The three checks of R137, in order, and what DEC then leaves. -/
theorem decWith_cases (capIn : Nat) (s : State) :
    (capIn < s.ilen.toNat ∧ decWith capIn s = s.raise .cap) ∨
    (s.ilen.toNat ≤ capIn ∧ s.ilen.toNat % 4 ≠ 0 ∧ decWith capIn s = s.raise .len) ∨
    (s.ilen.toNat ≤ capIn ∧ s.ilen.toNat % 4 = 0 ∧ (∃ i, i < s.effLen ∧ s.symbolAt i = false) ∧
      decWith capIn s = s.raise .char) ∨
    (s.ilen.toNat ≤ capIn ∧ s.ilen.toNat % 4 = 0 ∧ (∀ i, i < s.effLen → s.symbolAt i = true) ∧
      decWith capIn s = s.decDone s.effLen (decRun s.ibufAt s.rev s.effLen)) := by
  have hb := (decRun_spec s.ibufAt s.rev s.effLen).2.2.1
  unfold decWith exceedsCap notWholeGroups State.decEnd
  by_cases h1 : capIn < s.ilen.toNat
  · exact .inl ⟨h1, by simp [h1]⟩
  · by_cases h2 : s.ilen.toNat % 4 = 0
    · by_cases h3 : (decRun s.ibufAt s.rev s.effLen).bad = true
      · refine .inr (.inr (.inl ⟨by omega, h2, ?_, by simp [h1, h2, h3]⟩))
        obtain ⟨i, hi, hv⟩ := hb.1 h3
        exact ⟨i, hi, by simp [State.symbolAt, hv]⟩
      · refine .inr (.inr (.inr ⟨by omega, h2, fun i hi => ?_, by simp [h1, h2, h3]⟩))
        by_contra hv
        exact h3 (hb.2 ⟨i, hi, by simpa [State.symbolAt] using hv⟩)
    · exact .inr (.inl ⟨by omega, h2, by simp [h1, h2]⟩)

/-- A DEC whose input is clean completes (R86). -/
theorem execDec_clean {s : State} (h : s.DecodesClean) :
    exec .dec s = .next (s.decDone s.effLen (decRun s.ibufAt s.rev s.effLen)) := by
  obtain ⟨h1, h2, h3⟩ := h
  show execDec s = _
  rcases decWith_cases Config.capIn s with ⟨g, -⟩ | ⟨-, g, -⟩ | ⟨-, -, ⟨i, hi, g⟩, -⟩ | ⟨-, -, -, e⟩
  · omega
  · omega
  · simp [h3 i hi] at g
  · rw [execDec, e]

theorem effLen_le (s : State) : s.effLen ≤ s.ilen.toNat := trim_le ..

/-- Lengths stay far below `2^32` (R8). -/
theorem effLen_lt (s : State) : s.effLen < 2 ^ 32 := lt_of_le_of_lt (effLen_le s) s.ilen.isLt

/-- The length that a completing DEC writes is the exact one (R8, R79). -/
theorem decodedLen_toNat (s : State) : (BitVec.ofNat 32 (decodedLen s.effLen)).toNat = decodedLen s.effLen := by
  have := effLen_lt s
  rw [BitVec.toNat_ofNat, Nat.mod_eq_of_lt]
  unfold decodedLen
  omega

/-- What the host reads in OBUF after a DEC that completes. -/
theorem decDone_obufAt (s : State) (j : Nat) :
    (s.decDone s.effLen (decRun s.ibufAt s.rev s.effLen)).obufAt j =
      if j < decodedLen s.effLen then groupSlice s.inputVal j else Config.freeObuf (s.obufGen + 1) j := by
  have hf := (decRun_spec s.ibufAt s.rev s.effLen).2.2.2
  simp only [State.obufAt, State.decDone_obuf, State.decDone_obufGen, hf.2]
  split <;> rfl

/-! ## The group word and its bits -/

/-- Bit `n` of the string of symbols (R89), for the group form. -/
theorem groupWord_getMsbD (s0 s1 s2 s3 : Sym) (n : Nat) (hn : n < 24) :
    (groupWord s0 s1 s2 s3).getMsbD n =
      if n < 6 then s0.getMsbD n else if n < 12 then s1.getMsbD (n - 6)
      else if n < 18 then s2.getMsbD (n - 12) else s3.getMsbD (n - 18) := by
  have : ∀ m : Fin 24, (groupWord s0 s1 s2 s3).getMsbD m.val =
      if m.val < 6 then s0.getMsbD m.val else if m.val < 12 then s1.getMsbD (m.val - 6)
      else if m.val < 18 then s2.getMsbD (m.val - 12) else s3.getMsbD (m.val - 18) := by
    intro m
    fin_cases m <;> simp [groupWord, BitVec.getMsbD]
  exact this ⟨n, hn⟩

/-- A slice of a group word, bit by bit: its bits are those of the string of symbols (R89). -/
theorem groupSlice_getMsbD (val : Nat → Sym) (j k : Nat) (hk : k < 8) :
    (groupSlice val j).getMsbD k = symbolBit val (8 * j + k) := by
  have hr : j % 3 = 0 ∨ j % 3 = 1 ∨ j % 3 = 2 := by omega
  have e : (groupSlice val j).getMsbD k = (groupOf val (j / 3)).getMsbD (8 * (j % 3) + k) := by
    simp only [groupSlice, BitVec.getMsbD, BitVec.getLsbD_extractLsb']
    have : 16 - 8 * (j % 3) + (8 - 1 - k) = 24 - 1 - (8 * (j % 3) + k) := by omega
    rw [this]
    simp [hk, show 8 - 1 - k < 8 by omega, show 8 * (j % 3) + k < 24 by omega]
  rw [e, groupOf, groupWord_getMsbD _ _ _ _ _ (by omega), symbolBit]
  have hd : j = 3 * (j / 3) + j % 3 := by omega
  generalize j / 3 = g at *
  generalize j % 3 = r at *
  subst hd
  by_cases c1 : 8 * r + k < 6
  · rw [if_pos c1, show (8 * (3 * g + r) + k) / 6 = 4 * g by omega,
      show (8 * (3 * g + r) + k) % 6 = 8 * r + k by omega]
  · rw [if_neg c1]
    by_cases c2 : 8 * r + k < 12
    · rw [if_pos c2, show (8 * (3 * g + r) + k) / 6 = 4 * g + 1 by omega,
        show (8 * (3 * g + r) + k) % 6 = 8 * r + k - 6 by omega]
    · rw [if_neg c2]
      by_cases c3 : 8 * r + k < 18
      · rw [if_pos c3, show (8 * (3 * g + r) + k) / 6 = 4 * g + 2 by omega,
          show (8 * (3 * g + r) + k) % 6 = 8 * r + k - 12 by omega]
      · rw [if_neg c3, show (8 * (3 * g + r) + k) / 6 = 4 * g + 3 by omega,
          show (8 * (3 * g + r) + k) % 6 = 8 * r + k - 18 by omega]

/-- The bits of a byte of the string of symbols (R89). -/
theorem decodedByte_getMsbD (val : Nat → Sym) (j k : Nat) (hk : k < 8) :
    (decodedByte val j).getMsbD k = symbolBit val (8 * j + k) := by
  rw [decodedByte, BitVec.getMsbD_ofBoolListBE]
  have : k = 0 ∨ k = 1 ∨ k = 2 ∨ k = 3 ∨ k = 4 ∨ k = 5 ∨ k = 6 ∨ k = 7 := by omega
  rcases this with rfl | rfl | rfl | rfl | rfl | rfl | rfl | rfl <;> rfl

end Sys2Proof.Machine
end

