-- ==== Sys2Proof/Laws/Enc.lean ====
section
/-! SUPPORT. What ENC's shared operations do, said once each: taking a byte in, sending a character out, one turn of the
outer loop, the whole loop, the pad loop, and the two ways the command ends. -/

namespace Sys2Proof.Machine

/-- The number of bytes taken in before character `k` is complete: `ceil(6k / 8)`, but never more than there are. -/
def bytesTaken (ilen k : Nat) : Nat := min ilen ((6 * k + 7) / 8)

/-- After `k` turns of the outer loop (R109): OIDX is `k`; the bytes for `k` characters are taken in; NBITS is 8 per byte
less 6 per character; the window holds the unsent bits at its top and zeros below; OBUF holds the characters so far. -/
def EncAfter (rd : Nat → Byte) (alpha : AlphaTable) (ilen k : Nat) (r : EncRun) : Prop :=
  r.oidx = k ∧ r.iidx = bytesTaken ilen k ∧ r.nbits.toInt = 8 * (r.iidx : Int) - 6 * (k : Int) ∧
  (∀ p, p < 32 → r.acc.getMsbD p = (decide (6 * k + p < 8 * r.iidx) && inputBit rd ilen (6 * k + p))) ∧
  Filled (fun j => alphaAt alpha (encodedSym rd ilen j)) k r.out

theorem encAfter_start (rd : Nat → Byte) (alpha : AlphaTable) (ilen : Nat) : EncAfter rd alpha ilen 0 encStart := by
  refine ⟨rfl, by simp [encStart, bytesTaken], by simp [encStart], ?_, Filled.empty _⟩
  simp [encStart]

/-- A byte enters the window just below the buffered bits (R50). -/
theorem windowFill_getMsbD (acc : Word) (nbits : BitCount) (b : Byte) (n : Nat) (hn : nbits.toInt = (n : Int))
    (h24 : n ≤ 24) (p : Nat) :
    (windowFill acc nbits b).getMsbD p = (acc.getMsbD p || (decide (n ≤ p) && decide (p < n + 8) && b.getMsbD (p - n))) := by
  have ho : windowOffset nbits = 24 - n := by unfold windowOffset; omega
  simp only [windowFill, ho, BitVec.getMsbD_or, BitVec.getMsbD_shiftLeft, BitVec.getMsbD_setWidth]
  congr 1
  by_cases h1 : n ≤ p
  · have h3 : 24 ≤ p + (24 - n) := by omega
    have h4 : p + (24 - n) - (32 - 8) = p - n := by omega
    by_cases h2 : p < n + 8
    · simp [h1, h2, h3, h4]
    · simp [h2, h4, BitVec.getMsbD_of_ge b (p - n) (by omega)]
  · have h3 : ¬ 24 ≤ p + (24 - n) := by omega
    simp [h1, h3]

/-- The symbol value at the top of the window (R104). -/
theorem windowSelect_getMsbD (acc : Word) (p : Nat) (hp : p < 6) : (windowSelect acc).getMsbD p = acc.getMsbD p := by
  simp only [windowSelect, BitVec.getMsbD_setWidth, BitVec.getMsbD_ushiftRight]
  simp
  omega

/-- The signed count after a byte is taken in. -/
theorem countFill_toInt (n : BitCount) (h : n.toInt < 8) : (countFill n).toInt = n.toInt + 8 := by
  revert n
  decide

/-- The signed count after a character is sent out. -/
theorem countShift_toInt (n : BitCount) (h : -10 ≤ n.toInt) : (countShift n).toInt = n.toInt - 6 := by
  revert n
  decide

/-- One more byte of the input string of bits. -/
theorem inputBit_byte (rd : Nat → Byte) (n i q : Nat) (hi : i < n) (hq : q < 8) :
    inputBit rd n (8 * i + q) = (rd i).getMsbD q := by
  have h1 : (8 * i + q) / 8 = i := by omega
  have h2 : (8 * i + q) % 8 = q := by omega
  simp [inputBit, h1, h2, hi]

/-- The bits of a value of the string of input bits (R110). -/
theorem encodedSym_getMsbD (rd : Nat → Byte) (n j k : Nat) (hk : k < 6) :
    (encodedSym rd n j).getMsbD k = inputBit rd n (6 * j + k) := by
  rw [encodedSym, BitVec.getMsbD_ofBoolListBE]
  have : k = 0 ∨ k = 1 ∨ k = 2 ∨ k = 3 ∨ k = 4 ∨ k = 5 := by omega
  rcases this with rfl | rfl | rfl | rfl | rfl | rfl <;> rfl

/-- The four values of a group, bit by bit: the 24 bits of its three bytes, in order (R111). -/
theorem groupSym_getMsbD (b0 b1 b2 : Byte) (k : Nat) (hk : k < 6) :
    (groupSym0 b0).getMsbD k = b0.getMsbD k ∧
      (groupSym1 b0 b1).getMsbD k = (if k < 2 then b0.getMsbD (6 + k) else b1.getMsbD (k - 2)) ∧
      (groupSym2 b1 b2).getMsbD k = (if k < 4 then b1.getMsbD (4 + k) else b2.getMsbD (k - 4)) ∧
      (groupSym3 b2).getMsbD k = b2.getMsbD (2 + k) := by
  have hc : k = 0 ∨ k = 1 ∨ k = 2 ∨ k = 3 ∨ k = 4 ∨ k = 5 := by omega
  have h1 : (b0.extractLsb' 0 2 ++ b1.extractLsb' 4 4 : BitVec (2 + 4)).getMsbD k =
      (if k < 2 then b0.getMsbD (6 + k) else b1.getMsbD (k - 2)) := by
    rw [BitVec.getMsbD_append]
    rcases hc with rfl | rfl | rfl | rfl | rfl | rfl <;> simp [BitVec.getMsbD]
  have h2 : (b1.extractLsb' 0 4 ++ b2.extractLsb' 6 2 : BitVec (4 + 2)).getMsbD k =
      (if k < 4 then b1.getMsbD (4 + k) else b2.getMsbD (k - 4)) := by
    rw [BitVec.getMsbD_append]
    rcases hc with rfl | rfl | rfl | rfl | rfl | rfl <;> simp [BitVec.getMsbD]
  refine ⟨?_, h1, h2, ?_⟩ <;> rcases hc with rfl | rfl | rfl | rfl | rfl | rfl <;>
    simp [groupSym0, groupSym3, BitVec.getMsbD]

/-- The fill of turn `k` (R103): the bytes for character `k` are in, one at most was taken, and the window holds them. -/
theorem encFill_after {rd : Nat → Byte} {alpha : AlphaTable} {ilen k : Nat} {r : EncRun} (h : EncAfter rd alpha ilen k r) :
    (encFill rd ilen encFillTurns r).oidx = k ∧ (encFill rd ilen encFillTurns r).out = r.out ∧
      (encFill rd ilen encFillTurns r).iidx = bytesTaken ilen (k + 1) ∧
      (encFill rd ilen encFillTurns r).nbits.toInt = 8 * (bytesTaken ilen (k + 1) : Int) - 6 * (k : Int) ∧
      ∀ p, p < 32 → (encFill rd ilen encFillTurns r).acc.getMsbD p =
        (decide (6 * k + p < 8 * bytesTaken ilen (k + 1)) && inputBit rd ilen (6 * k + p)) := by
  obtain ⟨ho, hi, hn, ha, -⟩ := h
  by_cases hf : r.nbits.toInt < 6 ∧ r.iidx < ilen
  · have hb : bytesTaken ilen (k + 1) = r.iidx + 1 := by unfold bytesTaken at hi ⊢; omega
    obtain ⟨m, hm, hm4⟩ : ∃ m : Nat, r.nbits.toInt = (m : Int) ∧ m ≤ 4 := by
      refine ⟨8 * r.iidx - 6 * k, ?_, ?_⟩ <;> unfold bytesTaken at hi <;> omega
    have hc : (countFill r.nbits).toInt = r.nbits.toInt + 8 := countFill_toInt _ (by omega)
    have he : encFill rd ilen encFillTurns r = encTake rd r := by
      have hx : needsFill (encTake rd r).nbits = false := by
        simp only [needsFill, encTake, hc, decide_eq_false_iff_not]
        omega
      simp [encFillTurns, encFill, needsFill, hf.1, hf.2]
      simp only [needsFill] at hx
      simp [of_decide_eq_false hx]
    rw [he, hb]
    refine ⟨ho, rfl, rfl, by simp only [encTake, hc, hn]; omega, fun p hp => ?_⟩
    have hmk : m = 8 * r.iidx - 6 * k ∧ 6 * k ≤ 8 * r.iidx := by omega
    simp only [encTake]
    rw [windowFill_getMsbD _ _ _ m hm (by omega) p, ha p hp]
    by_cases h1 : 6 * k + p < 8 * r.iidx
    · have h2 : ¬ m ≤ p := by omega
      simp [h1, h2, show 6 * k + p < 8 * (r.iidx + 1) by omega]
    · by_cases h2 : p < m + 8
      · have h3 : 6 * k + p = 8 * r.iidx + (p - m) := by omega
        rw [h3, inputBit_byte rd ilen r.iidx (p - m) hf.2 (by omega)]
        simp [h2, show m ≤ p by omega, show 8 * r.iidx + (p - m) < 8 * (r.iidx + 1) by omega]
      · simp [h1, h2, show ¬ 6 * k + p < 8 * (r.iidx + 1) by omega]
  · have hb : bytesTaken ilen (k + 1) = r.iidx := by unfold bytesTaken at hi ⊢; omega
    have he : encFill rd ilen encFillTurns r = r := by
      have hx : (needsFill r.nbits && decide (r.iidx < ilen)) = false := by
        simp only [needsFill, Bool.and_eq_false_iff, decide_eq_false_iff_not]
        omega
      simp [encFillTurns, encFill, hx]
    rw [he, hb]
    exact ⟨ho, rfl, rfl, hn, ha⟩

/-- One turn of the outer loop sends the next character of the closed form (R103 to R106, R110). -/
theorem encTurn_after {rd : Nat → Byte} {alpha : AlphaTable} {ilen k : Nat} {r : EncRun} (h : EncAfter rd alpha ilen k r)
    (hk : k < encTurns ilen) : EncAfter rd alpha ilen (k + 1) (encTurn rd alpha ilen r) := by
  obtain ⟨ho, hout, hi, hn, ha⟩ := encFill_after h
  have hsel : windowSelect (encFill rd ilen encFillTurns r).acc = encodedSym rd ilen k := by
    apply BitVec.eq_of_getMsbD_eq
    intro p hp
    rw [windowSelect_getMsbD _ _ hp, ha p (by omega)]
    have hz : 8 * bytesTaken ilen (k + 1) ≤ 6 * k + p → inputBit rd ilen (6 * k + p) = false := by
      intro hle
      have : ¬ (6 * k + p) / 8 < ilen := by
        unfold bytesTaken at hle
        omega
      simp [inputBit, this]
    have hx : (decide (6 * k + p < 8 * bytesTaken ilen (k + 1)) && inputBit rd ilen (6 * k + p)) =
        inputBit rd ilen (6 * k + p) := by
      by_cases hl : 6 * k + p < 8 * bytesTaken ilen (k + 1)
      · simp [hl]
      · simp [hl, hz (by omega)]
    rw [hx]
    exact (encodedSym_getMsbD rd ilen k p hp).symm
  have hlo : -10 ≤ (encFill rd ilen encFillTurns r).nbits.toInt := by
    rw [hn]
    unfold encTurns at hk
    unfold bytesTaken
    omega
  refine ⟨by simp [encTurn, encSend, ho], by simp [encTurn, encSend, hi], ?_, fun p hp => ?_, ?_⟩
  · simp only [encTurn, encSend, countShift_toInt _ hlo, hn, hi]
    push_cast
    omega
  · simp only [encTurn, encSend, windowShift, BitVec.getMsbD_shiftLeft, hi]
    by_cases h6 : p + 6 < 32
    · rw [ha _ h6, show 6 * k + (p + 6) = 6 * (k + 1) + p by omega]
    · rw [BitVec.getMsbD_of_ge _ _ (by omega)]
      have : ¬ 6 * (k + 1) + p < 8 * bytesTaken ilen (k + 1) := by unfold bytesTaken; omega
      simp [this]
  · have := h.2.2.2.2.next (b := alphaAt alpha (encodedSym rd ilen k)) rfl
    simpa only [encTurn, encSend, hsel, ho, hout] using this

/-- The loop goes on exactly while characters are to come (R102). -/
theorem encGoesOn_iff {rd : Nat → Byte} {alpha : AlphaTable} {ilen k : Nat} {r : EncRun} (h : EncAfter rd alpha ilen k r) :
    encGoesOn ilen r = true ↔ k < encTurns ilen := by
  obtain ⟨-, hi, hn, -, -⟩ := h
  simp only [encGoesOn, bitsRemain, Bool.or_eq_true, decide_eq_true_eq, hn]
  unfold encTurns
  unfold bytesTaken at hi
  omega

/-- The loop from `k` turns on, with room for `n` more turns. -/
theorem encLoop_after {rd : Nat → Byte} {alpha : AlphaTable} {ilen : Nat} (n : Nat) {k : Nat} {r : EncRun}
    (h : EncAfter rd alpha ilen k r) (hk : k ≤ encTurns ilen) :
    EncAfter rd alpha ilen (min (k + n) (encTurns ilen)) (encLoop rd alpha ilen n r) := by
  induction n generalizing k r with
  | zero => simpa [encLoop, Nat.min_eq_left hk] using h
  | succ n ih =>
    unfold encLoop
    by_cases hg : k < encTurns ilen
    · rw [if_pos ((encGoesOn_iff h).2 hg), show k + (n + 1) = (k + 1) + n by omega]
      exact ih (encTurn_after h hg) hg
    · rw [if_neg (fun c => hg ((encGoesOn_iff h).1 c)), Nat.min_eq_right (by omega)]
      have : k = encTurns ilen := by omega
      exact this ▸ h

/-- The characters of the whole output: the closed form, then pads (R110). -/
def encodedChar (rd : Nat → Byte) (alpha : AlphaTable) (ilen j : Nat) : Byte :=
  if j < encTurns ilen then alphaAt alpha (encodedSym rd ilen j) else padOf alpha

/-- One pad (R107). -/
theorem encPad_step {rd : Nat → Byte} {alpha : AlphaTable} {ilen m : Nat} {r : EncRun} (hm : encTurns ilen ≤ m)
    (hf : Filled (encodedChar rd alpha ilen) m r.out) :
    Filled (encodedChar rd alpha ilen) (m + 1) (Memory.write r.out m (padOf alpha)) :=
  hf.next (by simp [encodedChar, show ¬ m < encTurns ilen by omega])

/-- The pad loop from `m` characters on: it ends at the next multiple of 4 and touches only OIDX and OBUF. -/
theorem encPad_after {rd : Nat → Byte} {alpha : AlphaTable} {ilen m : Nat} (n : Nat) {r : EncRun} (ho : r.oidx = m)
    (hm : encTurns ilen ≤ m) (hf : Filled (encodedChar rd alpha ilen) m r.out) (hn : 4 * ((m + 3) / 4) ≤ m + n) :
    (encPad (padOf alpha) n r).oidx = 4 * ((m + 3) / 4) ∧
      Filled (encodedChar rd alpha ilen) (4 * ((m + 3) / 4)) (encPad (padOf alpha) n r).out ∧
      (encPad (padOf alpha) n r).acc = r.acc ∧ (encPad (padOf alpha) n r).nbits = r.nbits ∧
      (encPad (padOf alpha) n r).iidx = r.iidx := by
  induction n generalizing m r with
  | zero =>
    have h4 : 4 * ((m + 3) / 4) = m := by omega
    rw [h4]
    exact ⟨ho, hf, rfl, rfl, rfl⟩
  | succ n ih =>
    unfold encPad
    by_cases h : m % 4 = 0
    · have h4 : 4 * ((m + 3) / 4) = m := by omega
      rw [if_neg (by simp [ho, h]), h4]
      exact ⟨ho, hf, rfl, rfl, rfl⟩
    · have h4 : 4 * ((m + 3) / 4) = 4 * ((m + 1 + 3) / 4) := by omega
      rw [if_pos (by simp [ho, h]), h4]
      subst ho
      exact ih rfl (by omega) (encPad_step hm hf) (by omega)

/-- `ENC`'s loops, whole (R108, R110): IIDX, OIDX, ACC and NBITS at the end, and the characters. -/
theorem encRun_spec (rd : Nat → Byte) (alpha : AlphaTable) (ilen : Nat) :
    (encRun rd alpha ilen).iidx = ilen ∧ (encRun rd alpha ilen).oidx = 4 * ((ilen + 2) / 3) ∧
      (encRun rd alpha ilen).acc = 0#32 ∧
      (encRun rd alpha ilen).nbits.toInt = 8 * (ilen : Int) - 6 * (encTurns ilen : Int) ∧
      Filled (encodedChar rd alpha ilen) (4 * ((ilen + 2) / 3)) (encRun rd alpha ilen).out := by
  have hl : EncAfter rd alpha ilen (encTurns ilen) (encLoop rd alpha ilen (encTurns ilen) encStart) := by
    simpa using encLoop_after (encTurns ilen) (encAfter_start rd alpha ilen) (Nat.zero_le _)
  obtain ⟨ho, hi, hn, ha, hw, hf⟩ := hl
  have hb : bytesTaken ilen (encTurns ilen) = ilen := by unfold bytesTaken encTurns; omega
  have hf' : Filled (encodedChar rd alpha ilen) (encTurns ilen) (encLoop rd alpha ilen (encTurns ilen) encStart).out := by
    refine ⟨hw, fun j => ?_⟩
    rw [hf]
    by_cases hj : j < encTurns ilen <;> simp [hj, encodedChar]
  have h4 : 4 * ((encTurns ilen + 3) / 4) = 4 * ((ilen + 2) / 3) := by unfold encTurns; omega
  obtain ⟨p1, p2, p3, p4, p5⟩ := encPad_after (rd := rd) (alpha := alpha) encPadTurns ho (Nat.le_refl _) hf'
    (by unfold encTurns encPadTurns; omega)
  rw [h4] at p1 p2
  refine ⟨by rw [encRun, p5, hi, hb], p1, ?_, by rw [encRun, p4, hn, hi, hb], p2⟩
  rw [encRun, p3]
  apply BitVec.eq_of_getMsbD_eq
  intro p hp
  rw [ha p hp, hi, hb]
  have : ¬ 6 * encTurns ilen + p < 8 * ilen := by unfold encTurns; omega
  simp [this]

/-! ## The command -/

/-- The one check of ENC, and what it then leaves. -/
theorem encWith_cases (capIn : Nat) (s : State) :
    (capIn < s.ilen.toNat ∧ encWith capIn s = s.raise .cap) ∨
    (s.ilen.toNat ≤ capIn ∧ encWith capIn s = s.encDone (encRun s.ibufAt s.alpha s.ilen.toNat)) := by
  unfold encWith exceedsCap
  by_cases h : capIn < s.ilen.toNat
  · exact .inl ⟨h, by simp [h]⟩
  · exact .inr ⟨by omega, by simp [h]⟩

/-- An ENC whose input fits completes, whatever the bytes are (R112). -/
theorem execEnc_fits {s : State} (h : s.ilen.toNat ≤ Config.capIn) :
    exec .enc s = .next (s.encDone (encRun s.ibufAt s.alpha s.ilen.toNat)) := by
  show execEnc s = _
  rcases encWith_cases Config.capIn s with ⟨g, -⟩ | ⟨-, e⟩
  · omega
  · rw [execEnc, e]

/-- R4 for the capacity, which holds whatever `CAP_IN` is. -/
theorem capIn_bounds : 4 ≤ Config.capIn ∧ Config.capIn ≤ Config.capOut ∧ Config.capOut < 2 ^ 32 := by
  have := Config.capExtra.isLt
  unfold Config.capOut Config.capIn
  omega

/-- The output of ENC fits OBUF, and its length is the exact one (R8, R112). -/
theorem encodedLen_le {s : State} (h : s.ilen.toNat ≤ Config.capIn) : 4 * ((s.ilen.toNat + 2) / 3) ≤ Config.capOut := by
  unfold Config.capOut
  omega

theorem encDone_olen {s : State} (h : s.ilen.toNat ≤ Config.capIn) :
    (s.encDone (encRun s.ibufAt s.alpha s.ilen.toNat)).olen.toNat = 4 * ((s.ilen.toNat + 2) / 3) := by
  have h1 := encodedLen_le h
  have h2 := capIn_bounds
  rw [State.encDone_olen, (encRun_spec ..).2.1, BitVec.toNat_ofNat, Nat.mod_eq_of_lt (by omega)]

/-- What the host reads in OBUF after an ENC that completes. -/
theorem encDone_obufAt (s : State) (j : Nat) :
    (s.encDone (encRun s.ibufAt s.alpha s.ilen.toNat)).obufAt j =
      if j < 4 * ((s.ilen.toNat + 2) / 3) then encodedChar s.ibufAt s.alpha s.ilen.toNat j
      else Config.freeObuf (s.obufGen + 1) j := by
  have hf := (encRun_spec s.ibufAt s.alpha s.ilen.toNat).2.2.2.2
  simp only [State.obufAt, State.encDone_obuf, State.encDone_obufGen, hf.2]
  split <;> rfl

end Sys2Proof.Machine
end

