-- ==== Sys2Proof/Laws/Step.lean ====
section
/-! SUPPORT. What a command, a transaction and a step can do, said once each: later proofs cite these and never unfold
`exec`, `transact` or `step`. -/

namespace Sys2Proof.Machine

/-- What a command leaves: nothing changed, a fault, or its result. -/
theorem exec_cases {i : Instr} {s t : State} (h : exec i s = .next t) :
    t = s ∨ (∃ c, c ≠ .cmd ∧ t = s.raise c) ∨
    (s.ilen.toNat ≤ Config.capIn ∧ t = s.decDone s.effLen (decRun s.ibufAt s.rev s.effLen)) ∨
    (s.ilen.toNat ≤ Config.capIn ∧ t = s.encDone (encRun s.ibufAt s.alpha s.ilen.toNat)) := by
  cases i with
  | nop =>
    cases h
    exact .inl rfl
  | tbl =>
    cases h
    exact .inl rfl
  | dec =>
    cases h
    rcases decWith_cases Config.capIn s with ⟨-, e⟩ | ⟨-, -, e⟩ | ⟨-, -, -, e⟩ | ⟨g, -, -, e⟩
    · exact .inr (.inl ⟨.cap, by decide, e⟩)
    · exact .inr (.inl ⟨.len, by decide, e⟩)
    · exact .inr (.inl ⟨.char, by decide, e⟩)
    · exact .inr (.inr (.inl ⟨g, e⟩))
  | enc =>
    cases h
    rcases encWith_cases Config.capIn s with ⟨-, e⟩ | ⟨g, e⟩
    · exact .inr (.inl ⟨.cap, by decide, e⟩)
    · exact .inr (.inr (.inr ⟨g, e⟩))

/-- Every command ends in a next state (R159). -/
theorem exec_next (i : Instr) (s : State) : ∃ t, exec i s = .next t := by
  cases i <;> exact ⟨_, rfl⟩

/-- What a write to CMD leaves. -/
theorem runCommand_cases {v : Byte} {s t : State} (h : runCommand v s = .next t) :
    (∃ i, decode v = .ok i ∧ exec i s = .next t) ∨ ((∃ r, decode v = .error r) ∧ t = s.setFlag .cmd) := by
  unfold runCommand at h
  split at h
  · exact .inl ⟨_, ‹_›, h⟩
  · cases h
    exact .inr ⟨⟨_, ‹_›⟩, rfl⟩

/-- What a transaction can do. -/
theorem transact_cases {x : Transaction} {s t : State} (h : transact x s = .next t) :
    (∃ v, x = .wr 0 v ∧ runCommand (BitVec.ofNat 8 v) s = .next t) ∨
    ((∃ v, x = .wr 1 v ∨ x = .wr 3 v) ∧ t = s) ∨
    (∃ v, x = .wr 2 v ∧ t = s.writeIlen (BitVec.ofNat 32 v)) ∨
    (∃ n v, x = .rd n ∧ s.regValue n = some v ∧ t = s.give v) ∨
    (∃ i v, x = .wrb i v ∧ i < Config.capIn ∧ t = s.writeIbuf i v) ∨
    (∃ i, x = .rdbi i ∧ i < Config.capIn ∧ t = s.give ((s.ibufAt i).setWidth 32)) ∨
    (∃ i, x = .rdb i ∧ i < Config.capOut ∧ t = s.give ((s.obufAt i).setWidth 32)) ∨
    (x = .reset ∧ t = s.resetEvent) := by
  cases x with
  | wr n v =>
    simp only [transact, State.writeReg] at h
    split at h
    · exact .inl ⟨v, rfl, h⟩
    · cases h
      exact .inr (.inl ⟨⟨v, .inl rfl⟩, rfl⟩)
    · cases h
      exact .inr (.inr (.inl ⟨v, rfl, rfl⟩))
    · cases h
      exact .inr (.inl ⟨⟨v, .inr rfl⟩, rfl⟩)
    · cases h
  | rd n =>
    simp only [transact, State.readReg] at h
    split at h
    · cases h
      exact .inr (.inr (.inr (.inl ⟨n, _, rfl, ‹_›, rfl⟩)))
    · cases h
  | wrb i v =>
    simp only [transact] at h
    split at h
    · cases h
      exact .inr (.inr (.inr (.inr (.inl ⟨i, v, rfl, ‹_›, rfl⟩))))
    · cases h
  | rdbi i =>
    simp only [transact] at h
    split at h
    · cases h
      exact .inr (.inr (.inr (.inr (.inr (.inl ⟨i, rfl, ‹_›, rfl⟩)))))
    · cases h
  | rdb i =>
    simp only [transact] at h
    split at h
    · cases h
      exact .inr (.inr (.inr (.inr (.inr (.inr (.inl ⟨i, rfl, ‹_›, rfl⟩))))))
    · cases h
  | reset =>
    cases h
    exact .inr (.inr (.inr (.inr (.inr (.inr (.inr ⟨rfl, rfl⟩))))))

/-- What a step can do. -/
theorem step_cases {s t : State} (h : step s = .next t) :
    (s.pending = [] ∧ t = s) ∨
    ∃ x rest, s.pending = x :: rest ∧ transact x { s with pending := rest } = .next t := by
  unfold step at h
  split at h
  · cases h
    exact .inl ⟨‹_›, rfl⟩
  · exact .inr ⟨_, _, ‹_›, h⟩

/-- The fault effect of R135 is what `raise` does. -/
theorem raise_faultEffect (s : State) (c : ErrCause) : FaultEffect s (s.raise c) c :=
  ⟨rfl, rfl, rfl, fun _ => rfl, rfl, rfl, rfl, rfl, rfl, fun _ => rfl, rfl, rfl, rfl, rfl, rfl⟩

/-! ## Reading IBUF after writing it -/

theorem ibufAt_writeIbuf (s : State) (i j : Nat) (v : Byte) :
    (s.writeIbuf i v).ibufAt j = if j = i then v else s.ibufAt j := by
  simp only [State.ibufAt, State.writeIbuf_ibuf, State.writeIbuf_ibufGen, Memory.lookup_write]
  split <;> simp

theorem ibufAt_loadAt (b : List Byte) (k : Nat) (s : State) (j : Nat) :
    (State.loadAt k b s).ibufAt j = if h : k ≤ j ∧ j < k + b.length then b[j - k]'(by omega) else s.ibufAt j := by
  induction b generalizing k s with
  | nil =>
    simp only [State.loadAt, List.length_nil, Nat.add_zero]
    rw [dif_neg (by omega)]
  | cons c b ih =>
    simp only [State.loadAt, ih, ibufAt_writeIbuf, List.length_cons]
    by_cases h1 : j = k
    · subst h1
      rw [dif_neg (by omega), dif_pos (by omega)]
      simp
    · by_cases h2 : k + 1 ≤ j ∧ j < k + 1 + b.length
      · rw [dif_pos h2, dif_pos (by omega)]
        have : j - k = (j - (k + 1)) + 1 := by omega
        simp [this]
      · rw [dif_neg h2, dif_neg (by omega)]
        simp [h1]

/-- `loadAt` writes IBUF and nothing else. -/
theorem loadAt_frame (b : List Byte) (k : Nat) (s : State) :
    State.loadAt k b s = { s with ibuf := (State.loadAt k b s).ibuf } := by
  induction b generalizing k s with
  | nil => rfl
  | cons c b ih =>
    simp only [State.loadAt]
    rw [ih]
    rfl

end Sys2Proof.Machine
end

