-- ==== Sys2Proof/Laws/Codec.lean ====
section
/-! SUPPORT. What claims over whole calls of the codec rest on: the input that the host loads, the result that it reads
back, what a result depends on, the flags, and the steps of a host sequence. -/

namespace Sys2Proof.Machine

/-! ## The input and the result -/

/-- `loadInput` writes IBUF and ILEN and nothing else. -/
theorem loadInput_frame (s : State) (b : List Byte) :
    s.loadInput b = { s with ibuf := (s.loadInput b).ibuf, ilen := BitVec.ofNat 32 b.length } := by
  simp only [State.loadInput]
  rw [loadAt_frame]
  rfl

theorem loadInput_alpha (s : State) (b : List Byte) : (s.loadInput b).alpha = s.alpha := by rw [loadInput_frame]

theorem loadInput_rev (s : State) (b : List Byte) : (s.loadInput b).rev = s.rev := by rw [loadInput_frame]

theorem loadInput_status (s : State) (b : List Byte) : (s.loadInput b).status = s.status := by rw [loadInput_frame]

/-- The length of an input that fits is the exact one (R8). -/
theorem loadInput_ilen (s : State) (b : List Byte) (h : b.length ≤ Config.capIn) :
    (s.loadInput b).ilen.toNat = b.length := by
  have := capIn_bounds
  simp only [State.loadInput, State.writeIlen_ilen, BitVec.toNat_ofNat]
  omega

/-- The elements of the input are in place. -/
theorem loadInput_ibufAt (s : State) (b : List Byte) (j : Nat) (h : j < b.length) : (s.loadInput b).ibufAt j = b[j] := by
  have : (s.loadInput b).ibufAt j = (State.loadAt 0 b s).ibufAt j := rfl
  rw [this, ibufAt_loadAt, dif_pos (by omega)]
  simp

theorem result_length (s : State) : s.result.length = s.olen.toNat := by simp [State.result]

theorem result_getElem (s : State) (j : Nat) (h : j < s.result.length) : s.result[j] = s.obufAt j := by
  simp [State.result]

/-! ## What a result depends on -/

/-- A byte below the decoded length depends on the symbols below EFF only (R89). -/
theorem groupSlice_congr {val val' : Nat → Sym} {eff j : Nat} (hj : j < decodedLen eff)
    (h : ∀ i, i < eff → val i = val' i) : groupSlice val j = groupSlice val' j := by
  apply BitVec.eq_of_getMsbD_eq
  intro k hk
  rw [groupSlice_getMsbD _ _ _ hk, groupSlice_getMsbD _ _ _ hk]
  unfold symbolBit
  unfold decodedLen at hj
  rw [h _ (by omega)]

/-- Two chunk loops over the same symbols below EFF write the same bytes and end at the same indices. -/
theorem decRun_congr {rd rd' : Nat → Byte} {rev rev' : RevTable} {eff : Nat}
    (h : ∀ i, i < eff → symbolsOf rd rev i = symbolsOf rd' rev' i) :
    (decRun rd rev eff).out = (decRun rd' rev' eff).out ∧ (decRun rd rev eff).iidx = (decRun rd' rev' eff).iidx ∧
      (decRun rd rev eff).oidx = (decRun rd' rev' eff).oidx := by
  obtain ⟨a1, a2, -, a4⟩ := decRun_spec rd rev eff
  obtain ⟨b1, b2, -, b4⟩ := decRun_spec rd' rev' eff
  exact ⟨a4.unique b4 fun j hj => groupSlice_congr hj h, by rw [a1, b1], by rw [a2, b2]⟩

/-- A value that ENC sends depends on the bytes below ILEN only (R110). -/
theorem encodedSym_congr {rd rd' : Nat → Byte} {n : Nat} (h : ∀ i, i < n → rd i = rd' i) (j : Nat) :
    encodedSym rd n j = encodedSym rd' n j := by
  apply BitVec.eq_of_getMsbD_eq
  intro k hk
  rw [encodedSym_getMsbD _ _ _ _ hk, encodedSym_getMsbD _ _ _ _ hk]
  simp only [inputBit]
  by_cases c : (6 * j + k) / 8 < n
  · simp [c, h _ c]
  · simp [c]

/-! ## The flags -/

/-- A fault sets the bit of its cause and keeps every other (R135, R138). -/
theorem setErr_getLsbD (b : Byte) (c : ErrCause) (k : Nat) (h : k ≠ errBit c) : (setErr b c).getLsbD k = b.getLsbD k := by
  simp only [setErr, BitVec.getLsbD_or, errMask, BitVec.getLsbD_shiftLeft]
  by_cases h8 : k < 8
  · have : k = 0 ∨ k = 1 ∨ k = 2 ∨ k = 3 ∨ k = 4 ∨ k = 5 ∨ k = 6 ∨ k = 7 := by omega
    cases c <;> rcases this with rfl | rfl | rfl | rfl | rfl | rfl | rfl | rfl <;> simp_all [errBit]
  · simp [h8]

/-- A flag that is set stays set when another fault sets its own (R138). -/
theorem errSet_setErr (b : Byte) (c d : ErrCause) (h : errSet b c = true) : errSet (setErr b d) c = true := by
  simp only [errSet, setErr, BitVec.getLsbD_or] at h ⊢
  simp [h]

/-! ## The steps of a host sequence -/

/-- One step and then the rest of a run. -/
theorem runSteps_step {k : Nat} {s t : State} (h : step s = .next t) : runSteps (k + 1) s = runSteps k t := by
  simp only [runSteps, h]

/-- A command neither reads nor writes the host's stream. -/
theorem exec_pending {i : Instr} {s t : State} (p : List Transaction) (h : exec i s = .next t) :
    exec i { s with pending := p } = .next { t with pending := p } := by
  have he : ({ s with pending := p } : State).effLen = s.effLen := rfl
  have hr : ({ s with pending := p } : State).ibufAt = s.ibufAt := rfl
  cases i with
  | nop => cases h; rfl
  | tbl => cases h; rfl
  | dec =>
    cases h
    show Host.Outcome.next (decWith _ _) = _
    congr 1
    simp only [decWith, he, hr]
    split
    · rfl
    · split
      · rfl
      · unfold State.decEnd
        split <;> rfl
  | enc =>
    cases h
    show Host.Outcome.next (encWith _ _) = _
    congr 1
    simp only [encWith, hr]
    split <;> rfl

/-- A command returns nothing to the host and takes nothing from it. -/
theorem exec_host {i : Instr} {s t : State} (h : exec i s = .next t) : t.received = s.received ∧ t.pending = s.pending := by
  rcases exec_cases h with rfl | ⟨c, -, rfl⟩ | ⟨-, rfl⟩ | ⟨-, rfl⟩ <;> exact ⟨rfl, rfl⟩

end Sys2Proof.Machine
end

