-- ==== Sys2Proof/Laws/PerInstr.lean ====
section
/-! SUPPORT. The family Encoding: for each command, its word is read back as it, and is well-formed (R45, R55). -/

namespace Sys2Proof.Laws

/-- The word of a command has `RSV = 0`, decodes to the command, and no other word does. -/
def Encoding.Statement (i : Instr) : Prop :=
  i.wellFormed = true ∧ commandWellFormed (encode i) = true ∧ rsvField (encode i) = 0#6 ∧ decode (encode i) = .ok i ∧
    ∀ v : Byte, decode v = .ok i → v = encode i

theorem Encoding.nop : Encoding.Statement .nop := ⟨rfl, by decide, by decide, rfl, by decide⟩

theorem Encoding.tbl : Encoding.Statement .tbl := ⟨rfl, by decide, by decide, rfl, by decide⟩

theorem Encoding.dec : Encoding.Statement .dec := ⟨rfl, by decide, by decide, rfl, by decide⟩

theorem Encoding.enc : Encoding.Statement .enc := ⟨rfl, by decide, by decide, rfl, by decide⟩

end Sys2Proof.Laws
end

