-- ==== Sys2Proof/Laws/Tables.lean ====
section
/-! SUPPORT. The laws of the two tables: the 65 codes are different, REV inverts ALPHA (R66), every other code is marked
(R67, R68), and the lazily built table agrees with the ROM on data symbols (R72). -/

namespace Sys2Proof.Machine

/-- R4 for the codes, as an injection on 0..64. -/
theorem alphabetDistinct_iff (alpha : AlphaTable) :
    alphabetDistinct alpha = true ↔ ∀ i j : Fin 65, alpha[i] = alpha[j] → i = j := by
  simp only [alphabetDistinct, List.all_eq_true, List.mem_finRange, true_imp_iff, Bool.or_eq_true, beq_iff_eq, bne_iff_ne,
    ne_eq]
  exact ⟨fun h i j e => (h i j).resolve_right (fun n => n e), fun h i j => by
    by_cases e : alpha[i] = alpha[j]
    · exact .inl (h i j e)
    · exact .inr e⟩

theorem alphaAt_injective {alpha : AlphaTable} (h : alphabetDistinct alpha = true) {i j : Sym}
    (e : alphaAt alpha i = alphaAt alpha j) : i = j := by
  have := (alphabetDistinct_iff alpha).1 h ⟨i.toNat, by have := i.isLt; omega⟩ ⟨j.toNat, by have := j.isLt; omega⟩ e
  exact BitVec.eq_of_toNat_eq (by simpa using this)

theorem alphaAt_ne_pad {alpha : AlphaTable} (h : alphabetDistinct alpha = true) (i : Sym) :
    alphaAt alpha i ≠ padOf alpha := by
  intro e
  have := (alphabetDistinct_iff alpha).1 h ⟨i.toNat, by have := i.isLt; omega⟩ ⟨64, by omega⟩ e
  have h64 : i.toNat = 64 := congrArg Fin.val this
  have := i.isLt
  omega

theorem revAt_buildRev (alpha : AlphaTable) (c : Byte) : revAt (buildRev alpha) c = revEntryFor alpha c := by
  simp [revAt, buildRev]

/-- A code that is no data symbol has the entry 0x40 (R67, R68). -/
theorem revEntryFor_other {alpha : AlphaTable} {c : Byte} (h : ∀ i : Sym, alphaAt alpha i ≠ c) :
    revEntryFor alpha c = revNoSymbol := by
  have : (alpha.toList.take 64).idxOf? c = none := by
    rw [List.idxOf?_eq_none_iff]
    intro hc
    obtain ⟨k, hk, e⟩ := List.mem_iff_getElem.1 hc
    have h64 : k < 64 := by
      have := List.length_take_le 64 alpha.toList
      omega
    apply h (BitVec.ofNat 6 k)
    have hm : k % 64 = k := by omega
    simp only [alphaAt, BitVec.toNat_ofNat]
    rw [List.getElem_take] at e
    simpa [hm] using e
  simp [revEntryFor, this]

/-- The entry of a data symbol is its value, with `INV = 0` (R66). -/
theorem revEntryFor_symbol {alpha : AlphaTable} (h : alphabetDistinct alpha = true) (i : Sym) :
    revEntryFor alpha (alphaAt alpha i) = i.setWidth 7 := by
  have hi := i.isLt
  have hl : (alpha.toList.take 64).length = 64 := by simp
  have hidx : (alpha.toList.take 64).idxOf? (alphaAt alpha i) = some i.toNat := by
    rw [List.idxOf?_eq_some_iff]
    refine ⟨by omega, by simp [alphaAt], fun j hj => ?_⟩
    have hjl : j < 64 := by omega
    simp only [List.getElem_take, ne_eq]
    intro e
    have := (alphabetDistinct_iff alpha).1 h ⟨j, by omega⟩ ⟨i.toNat, by omega⟩ (by simpa [alphaAt] using e)
    simp only [Fin.mk.injEq] at this
    omega
  rw [revEntryFor, hidx]
  apply BitVec.eq_of_toNat_eq
  simp

/-- A ROM built as R66 to R68 say agrees with its alphabet. -/
theorem tablesAgree_built {alpha : AlphaTable} (h : alphabetDistinct alpha = true) : TablesAgree alpha (buildRev alpha) := by
  refine ⟨h, fun i => ?_, fun c hc => ?_⟩
  · rw [revAt_buildRev, revEntryFor_symbol h]
  · rw [revAt_buildRev, revEntryFor_other hc]
    rfl

theorem State.RomsBuilt.agree {s : State} (h : s.RomsBuilt) : TablesAgree s.alpha s.rev := by
  rw [h.2]
  have := h.1
  simp only [alphabetWellFormed, Bool.and_eq_true] at this
  exact tablesAgree_built this.1

theorem revVal_setWidth (i : Sym) : revVal (i.setWidth 7) = i := by
  apply BitVec.eq_of_toNat_eq
  have : i.toNat < 64 := i.isLt
  simpa [revVal] using this

theorem revInv_setWidth (i : Sym) : revInv (i.setWidth 7) = false := by
  simp [revInv]

theorem TablesAgree.inv_symbol {alpha : AlphaTable} {rev : RevTable} (h : TablesAgree alpha rev) (i : Sym) :
    revInv (revAt rev (alphaAt alpha i)) = false := by
  rw [h.2.1, revInv_setWidth]

theorem TablesAgree.val_symbol {alpha : AlphaTable} {rev : RevTable} (h : TablesAgree alpha rev) (i : Sym) :
    revVal (revAt rev (alphaAt alpha i)) = i := by
  rw [h.2.1, revVal_setWidth]

theorem TablesAgree.inv_pad {alpha : AlphaTable} {rev : RevTable} (h : TablesAgree alpha rev) :
    revInv (revAt rev (padOf alpha)) = true :=
  h.2.2 _ fun i => alphaAt_ne_pad h.1 i

/-- A code with `INV = 0` is the data symbol that its `VAL` says. -/
theorem TablesAgree.symbol_of_inv {alpha : AlphaTable} {rev : RevTable} (h : TablesAgree alpha rev) {c : Byte}
    (hc : revInv (revAt rev c) = false) : alphaAt alpha (revVal (revAt rev c)) = c := by
  by_contra hn
  by_cases hs : ∃ i : Sym, alphaAt alpha i = c
  · obtain ⟨i, rfl⟩ := hs
    exact hn (by rw [h.val_symbol])
  · rw [h.2.2 c fun i e => hs ⟨i, e⟩] at hc
    exact absurd hc (by simp)

/-- The builder's loop over the first `n` positions (R72): each of those codes has its position as its entry. -/
theorem revAt_lazyFill {alpha : AlphaTable} (h : alphabetDistinct alpha = true) (n : Nat) (hn : n ≤ 65) (t : RevTable)
    (i : Fin 65) (hi : i.val < n) : revAt (lazyFill alpha n hn t) alpha[i] = BitVec.ofNat 7 i.val := by
  induction n with
  | zero => omega
  | succ n ih =>
    simp only [revAt, lazyFill, Vector.getElem_set]
    by_cases e : i.val = n
    · have : alpha[i] = alpha[n] := by simp [← e]
      simp [this, e]
    · have hne : (alpha[n]).toNat ≠ (alpha[i]).toNat := by
        intro c
        have := (alphabetDistinct_iff alpha).1 h ⟨n, by omega⟩ i (by simpa using BitVec.eq_of_toNat_eq c)
        exact e (by simp [← this])
      rw [if_neg hne]
      exact ih (by omega) (by omega)

end Sys2Proof.Machine
end

