-- ==== Sys2Proof/Tests/Slice0.lean ====
section
/-! SUPPORT. The model's own tests. Expected results are the spec's (spec/95_test_vectors.md, whose section is named at each
test) or written out from the rule named. Then, for every statement with hypotheses, a witness that meets all of them. -/

namespace Sys2Proof.Tests

open Sys2Proof.Machine

/-! ## Helpers -/

/-- The state after reset with the input `b` in place. -/
def loaded (b : List Byte) : State := State.reset.loadInput b

/-- The state after reset with one transaction for the host to issue. -/
def issuing (x : Transaction) : State := { State.reset with pending := [x] }

/-- One look at the next state that an outcome holds, if it holds one. -/
def seen {α : Type} (f : State → α) : Host.Outcome State Fault Refusal → Option α
  | .next t => some (f t)
  | .fault _ => none
  | .refused _ => none

/-- The text "TWFu". -/
def textMan : List Byte := [0x54, 0x57, 0x46, 0x75]

/-- The text "TQ==". -/
def textM : List Byte := [0x54, 0x51, 0x3D, 0x3D]

/-- The bytes of "Man". -/
def bytesMan : List Byte := [0x4D, 0x61, 0x6E]

/-! ## Well-formedness: each check refuses an ill-formed term -/

theorem test_commands_are_well_formed : [Instr.nop, .tbl, .dec, .enc].all Instr.wellFormed = true := by decide

/-- R56: the least and the greatest reserved word, and the greatest word that is not reserved. -/
theorem test_reserved_word_is_ill_formed :
    commandWellFormed 0x03 = true ∧ commandWellFormed 0x04 = false ∧ commandWellFormed 0xFF = false := by decide

/-- R4: an alphabet in which `B` stands twice. -/
theorem test_repeated_code_is_ill_formed : alphabetDistinct (defaultAlpha.set 0 0x42) = false := by decide +kernel

/-- R4: a data symbol with the pad's code. -/
theorem test_pad_among_the_symbols_is_ill_formed : alphabetDistinct (defaultAlpha.set 63 0x3D) = false := by
  decide +kernel

/-- R4: an alphabet with `T` and `Q` exchanged has distinct codes and is not the document's. -/
theorem test_unpinned_alphabet_is_ill_formed :
    alphabetPinned ((defaultAlpha.set 19 0x51).set 16 0x54) = false ∧
    alphabetWellFormed ((defaultAlpha.set 19 0x51).set 16 0x54) = false := by decide +kernel

/-- R4: the capacities just below and just above the range, and the two ends of it. -/
theorem test_capacity_bounds :
    capacityWellFormed 3 = false ∧ capacityWellFormed 4 = true ∧ capacityWellFormed 3221225469 = true ∧
    capacityWellFormed 3221225470 = false := by decide

/-! ## Decoding: words written out bit by bit (R45, R55, R56; vectors 3.1) -/

theorem test_decode_nop : decode 0b00000000#8 = .ok .nop := rfl

theorem test_decode_tbl : decode 0b00000001#8 = .ok .tbl := rfl

theorem test_decode_dec : decode 0b00000010#8 = .ok .dec := rfl

theorem test_decode_enc : decode 0b00000011#8 = .ok .enc := rfl

theorem test_decode_reserved :
    [0b00000100#8, 0b00000110#8, 0b10000000#8, 0b11111111#8].map decode =
      [.error (.reservedCommand 0x04), .error (.reservedCommand 0x06), .error (.reservedCommand 0x80),
        .error (.reservedCommand 0xFF)] := rfl

theorem test_table_words :
    [0, 1, 2, 3, 4].map (decodeTableWord 8) = [some .nop, some .tbl, some .dec, some .enc, none] := rfl

/-! ## One step of each command -/

/-- Vectors 3.1: NOP changes nothing, with a flag set. -/
theorem test_nop : exec .nop { loaded textMan with status := 0x11 } = .next { loaded textMan with status := 0x11 } := rfl

/-- Vectors 3.1: TBL changes nothing, with a flag set. -/
theorem test_tbl : exec .tbl { loaded textMan with status := 0x1B } = .next { loaded textMan with status := 0x1B } := rfl

/-- Vectors 1.3: "TQ==" has EFF 2 and the one byte 4D. -/
theorem test_dec_padded :
    seen (fun t => (t.result, t.olen, t.eff, t.iidx, t.oidx, t.status)) (exec .dec (loaded textM)) =
      some ([0x4D], 1, 2, 4, 1, 0x01) := by decide +kernel

/-- Vectors 4: "TW*u" raises `ERR_CHAR` on top of the flags that are set. -/
theorem test_dec_invalid_character :
    seen (fun t => (t.status, t.olen, t.ilen, t.obuf)) (exec .dec { loaded [0x54, 0x57, 0x2A, 0x75] with status := 0x09 }) =
      some (0x19, 0, 4, []) := by decide +kernel

/-- Vectors 1.2: one byte gives "TQ==" and leaves NBITS at -4. -/
theorem test_enc_padded :
    seen (fun t => (t.result, t.acc, t.nbits.toInt, t.iidx, t.oidx, t.eff)) (exec .enc (loaded [0x4D])) =
      some (textM, 0, -4, 1, 4, 0) := by decide +kernel

/-- Vectors 3.5: `FF FE FD FC`, with bit 31 of ACC set at the selects, gives "//79/A==". -/
theorem test_enc_logical_shift :
    (encWith 8 (loaded [0xFF, 0xFE, 0xFD, 0xFC])).result = [0x2F, 0x2F, 0x37, 0x39, 0x2F, 0x41, 0x3D, 0x3D] := by
  decide +kernel

/-! ## The checks in order (R137), the transactions and the reset -/

/-- Vectors 4: "T*F" raises `ERR_LEN`, not `ERR_CHAR`; `ILEN = CAP_IN + 1` raises `ERR_CAP`, whatever `ILEN mod 4` is (here
for a capacity of 4). -/
theorem test_first_failing_check :
    (decWith 4 (loaded [0x54, 0x2A, 0x46])).status = 0x09 ∧ (decWith 4 { State.reset with ilen := 5 }).status = 0x05 ∧
    (encWith 4 { State.reset with ilen := 5 }).status = 0x05 ∧ (encWith 5 { State.reset with ilen := 5 }).status = 0x01 := by
  decide +kernel

/-- Vectors 3.1 and R132: 0x06 sets `ERR_CMD` and runs no DEC, though its low bits spell one. -/
theorem test_reserved_command :
    step { loaded textMan with pending := [.wr 0 0x06] } = .next { loaded textMan with status := 0x03 } := rfl

/-- Vectors 3.1: `WR 0, 0x102` is truncated to 8 bits and runs DEC. -/
theorem test_command_value_is_truncated :
    seen (fun t => t.result) (step { loaded textMan with pending := [.wr 0 0x102] }) = some bytesMan := by decide +kernel

/-- Vectors 3.2: register reads after reset. -/
theorem test_register_reads :
    [0, 1, 2, 3].map (fun n => seen (fun t => t.received) (step (issuing (.rd n)))) =
      [some [0], some [1], some [0], some [0]] := by decide +kernel

/-- Vectors 3.2: writes to STATUS and OLEN are ignored, ILEN holds any 32-bit value, register 4 does not exist. -/
theorem test_register_writes :
    step (issuing (.wr 1 0xFF)) = .next State.reset ∧ step (issuing (.wr 3 7)) = .next State.reset ∧
    step (issuing (.wr 2 0xFFFFFFFF)) = .next { State.reset with ilen := 0xFFFFFFFF } ∧
    step (issuing (.wr 4 0)) = .refused (.noSuchRegister 4) ∧ step (issuing (.rd 4)) = .refused (.noSuchRegister 4) :=
  ⟨rfl, rfl, rfl, rfl, rfl⟩

/-- Vectors 3.2: `WRB 0, 0xAB` and then `RDBI 0`. -/
theorem test_buffer_write_and_read :
    seen (fun t => (t.ibuf, t.received)) (runSteps 2 { State.reset with pending := [.wrb 0 0xAB, .rdbi 0] }) =
      some ([(0, 0xAB)], [0xAB]) := by decide +kernel

/-- R25 and R150: a reset after a fault. -/
theorem test_reset_clears_the_flags :
    seen (fun t => (t.status, t.ilen, t.ibuf)) (step { loaded textMan with status := 0x1F, pending := [.reset] }) =
      some (0x01, 0, []) := by decide +kernel

/-- R30: the buffers at reset are in canonical form. -/
theorem test_reset_buffers_wf : Memory.wf State.reset.ibuf = true ∧ Memory.wf State.reset.obuf = true := by decide

/-! ## The two cores (vectors 3.3, 3.4) and the tables (R53, R54) -/

theorem test_pack_core :
    packCore defaultRev 0x54 0x57 0x46 0x75 = ⟨0x4D, 0x61, 0x6E, false, false, false, false⟩ ∧
    packCore defaultRev 0x54 0x51 0x3D 0x3D = ⟨0x4D, 0x00, 0x00, false, false, true, true⟩ := by decide +kernel

theorem test_unpack_core :
    unpackCore defaultAlpha 0x4D 0x61 0x6E = textMan ∧ unpackCore defaultAlpha 0x03 0xD9 0x7E = [0x41, 0x39, 0x6C, 0x2B] := by
  decide +kernel

/-- R53 and R54 at the ends of the five runs of the alphabet. -/
theorem test_default_tables :
    [0x41, 0x5A, 0x61, 0x7A, 0x30, 0x39, 0x2B, 0x2F, 0x3D, 0x2D, 0xFF].map (revAt defaultRev) =
      [0, 25, 26, 51, 52, 61, 62, 63, 0x40, 0x40, 0x40] := by decide +kernel

/-! ## Witnesses: for each statement with hypotheses, a state and operands that meet all of them -/

theorem fits {n : Nat} (h : n ≤ 4) : n ≤ Config.capIn := Nat.le_trans h capIn_bounds.1

theorem default_alphabet : alphabetWellFormed defaultAlpha = true := by decide +kernel

theorem default_distinct : alphabetDistinct defaultAlpha = true := by
  have := default_alphabet
  simp only [alphabetWellFormed, Bool.and_eq_true] at this
  exact this.1

/-- A state with its REV as R66 to R68 build it from the default alphabet. -/
def built (s : State) : State := { s with rev := buildRev s.alpha }

theorem built_roms : (built State.reset).RomsBuilt := ⟨default_alphabet, rfl⟩

theorem built_agree : TablesAgree (built State.reset).alpha (built State.reset).rev := built_roms.agree

/-- "TWFu" decodes clean. -/
theorem clean_man : (loaded textMan).DecodesClean := ⟨fits (by decide +kernel), by decide +kernel, by decide +kernel⟩

/-- "TQ==" decodes clean: its pads lie at EFF and above. -/
theorem clean_m : (loaded textM).DecodesClean := ⟨fits (by decide +kernel), by decide +kernel, by decide +kernel⟩

/-- "====" decodes clean: nothing is left of it. -/
theorem clean_pads : (loaded [0x3D, 0x3D, 0x3D, 0x3D]).DecodesClean :=
  ⟨fits (by decide +kernel), by decide +kernel, by decide +kernel⟩

theorem test_meets_DecodeInvertsEncode :
    Instr.enc.wellFormed = true ∧ decode 0x03#8 = .ok .enc ∧ (0x03#8).extractLsb' 2 6 = 0#6 ∧
    (0x04#8).extractLsb' 2 6 ≠ 0#6 := by decide

theorem test_meets_StepRunsTheDecodedCommand :
    (issuing (.wr 0 0x102)).pending = .wr 0 0x102 :: [] ∧ decode (BitVec.ofNat 8 0x102) = .ok .dec ∧
    decodeTableWord 8 3 = some .enc := ⟨rfl, rfl, rfl⟩

theorem test_meets_ReservedCommandSetsErrCmdOnly :
    (issuing (.wr 0 4)).pending = .wr 0 4 :: [] ∧ (BitVec.ofNat 8 4).extractLsb' 2 6 ≠ 0#6 ∧
    (BitVec.ofNat 8 0xFF).extractLsb' 2 6 ≠ 0#6 := by decide +kernel

theorem test_meets_RegisterWrites :
    [1, 2, 3, 4].map (fun n => (issuing (.wr n 7)).pending) = [[.wr 1 7], [.wr 2 7], [.wr 3 7], [.wr 4 7]] := rfl

theorem test_meets_RegisterReads :
    [0, 1, 2, 3, 4].map (fun n => (issuing (.rd n)).pending) = [[.rd 0], [.rd 1], [.rd 2], [.rd 3], [.rd 4]] := rfl

/-- Each clause at its boundary: the last element and the first index past it. -/
theorem test_meets_BufferTransactions :
    (∀ v, (issuing (.wrb (Config.capIn - 1) v)).pending = .wrb (Config.capIn - 1) v :: []) ∧
    (issuing (.rdbi 0)).pending = .rdbi 0 :: [] ∧ (issuing (.rdb 0)).pending = .rdb 0 :: [] ∧
    0 < Config.capIn ∧ Config.capIn - 1 < Config.capIn ∧ Config.capIn ≤ Config.capIn ∧ 0 < Config.capOut ∧
    Config.capOut - 1 < Config.capOut ∧ Config.capOut ≤ Config.capOut := by
  have := capIn_bounds
  refine ⟨fun v => rfl, rfl, rfl, ?_, ?_, ?_, ?_, ?_, ?_⟩ <;> omega

theorem test_meets_WrittenElementReadsBack : 0 < Config.capIn ∧ Config.capIn - 1 < Config.capIn ∧ (1 : Nat) ≠ 0 := by
  have := capIn_bounds
  omega

theorem test_meets_ReadsHaveNoSideEffect :
    (∃ t, transact (.rd 1) State.reset = .next t) ∧ (∃ t, transact (.rdbi 0) State.reset = .next t) ∧
    ∃ t, transact (.rdb 0) State.reset = .next t := by
  have := capIn_bounds
  refine ⟨⟨_, rfl⟩, ?_, ?_⟩ <;> simp only [transact]
  · exact ⟨_, if_pos (by omega)⟩
  · exact ⟨_, if_pos (by omega)⟩

theorem test_meets_IdleBlockHoldsItsState : State.reset.pending = [] := rfl

theorem test_meets_HostCallRunsTheCommand :
    ({ State.reset with pending := encodeCall [0x4D] } : State).pending = callSequence .enc [0x4D] ++ [] ∧
    [0x4D#8].length ≤ Config.capIn := ⟨rfl, fits (by decide)⟩

theorem test_meets_ReadBackReturnsTheElements :
    ({ State.reset with pending := readBack 2 } : State).pending = readBack 2 ++ [] ∧ 2 ≤ Config.capOut := by
  have := capIn_bounds
  exact ⟨rfl, by omega⟩

theorem test_meets_ResetTransaction : (issuing .reset).pending = .reset :: [] := rfl

theorem test_meets_ReverseTableInvertsAlphabet :
    (built State.reset).RomsBuilt ∧ revInv (revAt (built State.reset).rev 0x2F) = false := ⟨built_roms, by decide +kernel⟩

theorem test_meets_OtherCodesAreMarked :
    (built State.reset).RomsBuilt ∧ ∀ i : Sym, alphaAt (built State.reset).alpha i ≠ 0x2A#8 := ⟨built_roms, by decide +kernel⟩

theorem test_meets_TablesNeverChange :
    step (issuing (.wr 0 1)) = .next State.reset ∧ ∃ t, step (issuing .reset) = .next t := ⟨rfl, _, rfl⟩

theorem test_meets_LazyTableDecodesLikeTheRom :
    (built (loaded textMan)).RomsBuilt ∧ (built (loaded textMan)).DecodesClean ∧
    (LazyTable.mk false (Vector.replicate 256 0x7F#7)).built = false :=
  ⟨⟨default_alphabet, rfl⟩, ⟨fits (by decide +kernel), by decide +kernel, by decide +kernel⟩, rfl⟩

theorem test_meets_CapacityBounds : 0 ≤ Config.capIn ∧ Config.capIn ≤ Config.capIn := ⟨Nat.zero_le _, Nat.le_refl _⟩

/-- Vectors 3.2: `ILEN = 0xFFFFFFFF` is above every capacity that R4 allows. -/
theorem test_meets_TooLongInputRaisesErrCap :
    Config.capIn < ({ State.reset with ilen := 0xFFFFFFFF#32 } : State).ilen.toNat := by
  have := capIn_bounds
  show Config.capIn < 4294967295
  have h : Config.capOut = 4 * ((Config.capIn + 2) / 3) := rfl
  omega

theorem test_meets_PartialGroupRaisesErrLen :
    (loaded bytesMan).ilen.toNat ≤ Config.capIn ∧ (loaded bytesMan).ilen.toNat % 4 ≠ 0 :=
  ⟨fits (by decide +kernel), by decide +kernel⟩

/-- "TW*u", whose third character is no data symbol. -/
theorem test_meets_InvalidCharacterRaisesErrChar :
    (loaded [0x54, 0x57, 0x2A, 0x75]).ilen.toNat ≤ Config.capIn ∧ (loaded [0x54, 0x57, 0x2A, 0x75]).ilen.toNat % 4 = 0 ∧
    2 < (loaded [0x54, 0x57, 0x2A, 0x75]).effLen ∧
    revInv (revAt (loaded [0x54, 0x57, 0x2A, 0x75]).rev ((loaded [0x54, 0x57, 0x2A, 0x75]).ibufAt 2)) = true :=
  ⟨fits (by decide +kernel), by decide +kernel, by decide +kernel, by decide +kernel⟩

/-- Every branch of the chain is taken by some command and state. -/
theorem test_meets_FirstFailingCheckIsRaised :
    (0x06#8).extractLsb' 2 6 ≠ 0#6 ∧ (0x01#8).extractLsb' 1 1 = 0#1 ∧ (0x02#8).extractLsb' 0 1 = 0#1 ∧
    (0x03#8).extractLsb' 0 1 ≠ 0#1 ∧ Config.capIn < (0xFFFFFFFF#32 : Word).toNat ∧ (loaded bytesMan).ilen.toNat % 4 ≠ 0 ∧
    ¬ (∀ i, i < (loaded [0x54, 0x57, 0x2A, 0x75]).effLen → (loaded [0x54, 0x57, 0x2A, 0x75]).symbolAt i = true) ∧
    (loaded textMan).DecodesClean := by
  refine ⟨by decide, by decide, by decide, by decide, test_meets_TooLongInputRaisesErrCap, by decide +kernel, ?_, clean_man⟩
  exact fun h => absurd (h 2 (by decide +kernel)) (by decide +kernel)

theorem test_meets_ErrorFlagsAreSticky :
    step { State.reset with status := 0x11, pending := [.wr 0 0x06] } = .next { State.reset with status := 0x13 } ∧
    (∀ rest, ({ State.reset with status := 0x11, pending := [.wr 0 0x06] } : State).pending ≠ .reset :: rest) ∧
    errSet 0x11#8 .char = true := ⟨rfl, by simp, by decide⟩

/-- A position below the length of the result, for a padded text; `clean_m` meets the hypothesis itself. -/
theorem test_meets_DecMeetsItsClosedForm :
    (loaded textM).DecodesClean ∧ seen (fun t => decide (0 < t.olen.toNat)) (exec .dec (loaded textM)) = some true :=
  ⟨clean_m, by decide +kernel⟩

theorem test_meets_DecEndState : (loaded textMan).DecodesClean ∧ (loaded [0x3D, 0x3D, 0x3D, 0x3D]).DecodesClean :=
  ⟨clean_man, clean_pads⟩

/-- Two pads; and the boundary with nothing but pads. -/
theorem test_meets_DecLengthLaw :
    ((loaded textM).DecodesClean ∧ 2 ≤ (loaded textM).ilen.toNat ∧
      (∀ i, (loaded textM).ilen.toNat - 2 ≤ i → i < (loaded textM).ilen.toNat →
        (loaded textM).ibufAt i = padOf (loaded textM).alpha) ∧
      (loaded textM).ibufAt ((loaded textM).ilen.toNat - 2 - 1) ≠ padOf (loaded textM).alpha) ∧
    ((loaded [0x3D, 0x3D, 0x3D, 0x3D]).DecodesClean ∧ 4 = (loaded [0x3D, 0x3D, 0x3D, 0x3D]).ilen.toNat ∧
      ∀ i, i < (loaded [0x3D, 0x3D, 0x3D, 0x3D]).ilen.toNat →
        (loaded [0x3D, 0x3D, 0x3D, 0x3D]).ibufAt i = padOf (loaded [0x3D, 0x3D, 0x3D, 0x3D]).alpha) := by
  have h1 : (loaded textM).ilen.toNat = 4 := by decide +kernel
  have h2 : (loaded [0x3D, 0x3D, 0x3D, 0x3D]).ilen.toNat = 4 := by decide +kernel
  refine ⟨⟨clean_m, by omega, fun i a b => ?_, by decide +kernel⟩, clean_pads, h2.symm, by decide +kernel⟩
  have : i = 2 ∨ i = 3 := by omega
  rcases this with rfl | rfl <;> decide +kernel

/-- A REV with one entry replaced. -/
theorem revAt_set (rev : RevTable) (d c : Byte) (e : RevEntry) :
    revAt (rev.set d.toNat e d.isLt) c = if d = c then e else revAt rev c := by
  simp only [revAt, Vector.getElem_set, BitVec.toNat_inj]

/-- The pad's entry 0x40 in one table and 0x7F in the other. -/
theorem test_meets_DecIgnoresPadEntryAndBeyond :
    (∀ c, c ≠ padOf State.reset.alpha → revAt (State.reset.rev.set 0x3D 0x7F) c = revAt State.reset.rev c) ∧
    revInv (revAt State.reset.rev (padOf State.reset.alpha)) = true ∧
    revInv (revAt (State.reset.rev.set 0x3D 0x7F) (padOf State.reset.alpha)) = true := by
  refine ⟨fun c h => ?_, by decide +kernel, by decide +kernel⟩
  exact (revAt_set State.reset.rev 0x3D c 0x7F).trans (if_neg fun e => h e.symm)

/-- The entry of `*` 0x40 in one table and 0x55 in the other. -/
theorem test_meets_DecIgnoresValOfNonSymbols :
    (∀ c, revInv (revAt (State.reset.rev.set 0x2A 0x55) c) = revInv (revAt State.reset.rev c)) ∧
    ∀ c, revInv (revAt State.reset.rev c) = false →
      revAt (State.reset.rev.set 0x2A 0x55) c = revAt State.reset.rev c := by
  have hs : ∀ c, revAt (State.reset.rev.set 0x2A 0x55) c = if 0x2A#8 = c then 0x55#7 else revAt State.reset.rev c :=
    fun c => revAt_set State.reset.rev 0x2A c 0x55
  have hi : revInv (revAt State.reset.rev 0x2A#8) = true := by decide +kernel
  refine ⟨fun c => ?_, fun c h => ?_⟩ <;> rw [hs] <;> split
  · subst_vars
    exact hi.symm
  · rfl
  · subst_vars
    rw [hi] at h
    cases h
  · rfl

/-- One byte, two bytes and three: an ENC with two pads, with one and with none. The same states meet the hypothesis of
`EncEndState` and `EncLengthLaw`. -/
theorem test_meets_EncMeetsItsClosedForm :
    (loaded [0x4D]).ilen.toNat ≤ Config.capIn ∧ (loaded [0x4D, 0x61]).ilen.toNat ≤ Config.capIn ∧
    (loaded bytesMan).ilen.toNat ≤ Config.capIn ∧ 3 * 0 + 2 < (loaded bytesMan).ilen.toNat :=
  ⟨fits (by decide +kernel), fits (by decide +kernel), fits (by decide +kernel), by decide +kernel⟩

theorem test_meets_EncNeverFaultsOnItsData : [0xFF#8, 0x00#8].length ≤ Config.capIn := fits (by decide)

/-- In the output of one byte the positions 2 and 3 are pads, and 1 is none. The same state meets the hypotheses of
`NoDataSymbolAfterPad`. -/
theorem test_meets_EncPaddingLaw :
    alphabetDistinct (loaded [0x4D]).alpha = true ∧ (loaded [0x4D]).ilen.toNat ≤ Config.capIn ∧
    seen (fun t => (t.obufAt 1, t.obufAt 2, t.obufAt 3)) (exec .enc (loaded [0x4D])) = some (0x51, 0x3D, 0x3D) :=
  ⟨default_distinct, fits (by decide +kernel), by decide +kernel⟩

/-- The loop over one byte: NBITS is 2 after a turn, with the input used up, and -4 at the end; at the start the fill takes
its one byte. -/
theorem test_meets_WindowLoopInvariants :
    (encLoop (fun _ => 0x4D) defaultAlpha 1 1 encStart).nbits.toInt = 2 ∧
    (encLoop (fun _ => 0x4D) defaultAlpha 1 9 encStart).nbits.toInt = -4 ∧
    (encLoop (fun _ => 0x4D) defaultAlpha 1 0 encStart).nbits.toInt < 6 ∧
    (encLoop (fun _ => 0x4D) defaultAlpha 1 0 encStart).iidx < 1 := by decide +kernel

/-- Vectors 1.2, before step 5: ACC is 0x10000000 with NBITS at 4. And the two other counts. -/
theorem test_meets_WindowFillPlacesTheByte :
    ((4#5 : BitCount).toInt = ((4 : Nat) : Int) ∧ ∀ p, 4 ≤ p → (0x10000000#32).getMsbD p = false) ∧
    ((2#5 : BitCount).toInt = ((2 : Nat) : Int) ∧ ∀ p, 2 ≤ p → (0x40000000#32).getMsbD p = false) ∧
    ((0#5 : BitCount).toInt = ((0 : Nat) : Int) ∧ ∀ p, 0 ≤ p → (0#32).getMsbD p = false) := by
  have h4 : ∀ p, p < 32 → 4 ≤ p → (0x10000000#32).getMsbD p = false := by decide
  have h2 : ∀ p, p < 32 → 2 ≤ p → (0x40000000#32).getMsbD p = false := by decide
  refine ⟨⟨rfl, fun p h => ?_⟩, ⟨rfl, fun p h => ?_⟩, rfl, fun p _ => by simp⟩
  · by_cases c : p < 32
    · exact h4 p c h
    · exact BitVec.getMsbD_of_ge _ _ (by omega)
  · by_cases c : p < 32
    · exact h2 p c h
    · exact BitVec.getMsbD_of_ge _ _ (by omega)

theorem test_meets_UnpackCoreSendsTheGroup : encStart.acc = 0#32 ∧ encStart.nbits = 0#5 ∧ encStart.iidx + 3 ≤ 3 := by
  decide

theorem test_meets_RoundTripFromBytes :
    TablesAgree (built State.reset).alpha (built State.reset).rev ∧ 4 * (([0x4D#8].length + 2) / 3) ≤ Config.capIn :=
  ⟨built_agree, fits (by decide)⟩

/-- "TQ==", "TWE=" and "TWFu", with two pads, one and none. -/
theorem test_meets_RoundTripFromCanonicalText :
    TablesAgree (built State.reset).alpha (built State.reset).rev ∧ CanonicalString [19#6, 16#6] 2 ∧ CanonicalString [19#6, 22#6, 4#6] 1 ∧
    CanonicalString [19#6, 22#6, 5#6, 46#6] 0 ∧ [19#6, 16#6].length + 2 ≤ Config.capIn := by
  refine ⟨built_agree, ⟨by unfold WellFormedString; decide, ?_⟩, ⟨by unfold WellFormedString; decide, ?_⟩,
    ⟨by unfold WellFormedString; decide, ?_⟩, fits (by decide)⟩
  · rintro v h
    cases h
    exact ⟨fun _ => rfl, fun h => absurd h (by decide)⟩
  · rintro v h
    cases h
    exact ⟨fun h => absurd h (by decide), fun _ => rfl⟩
  · rintro v h
    exact ⟨fun h => absurd h (by decide), fun h => absurd h (by decide)⟩

/-- "TQ==" and "TR=="; "TWE=" and "TWF=" (vectors 4). -/
theorem test_meets_DroppedBitsAreNotRestored :
    TablesAgree (built State.reset).alpha (built State.reset).rev ∧ (built State.reset).RomsBuilt ∧
    (WellFormedString ([19#6] ++ [16#6]) 2 ∧ [19#6].length + 1 + 2 ≤ Config.capIn ∧
      (16#6).extractLsb' 4 2 = (17#6).extractLsb' 4 2) ∧
    (WellFormedString ([19#6, 22#6] ++ [4#6]) 1 ∧ [19#6, 22#6].length + 1 + 1 ≤ Config.capIn ∧
      (4#6).extractLsb' 2 4 = (5#6).extractLsb' 2 4) :=
  ⟨built_agree, built_roms, ⟨by unfold WellFormedString; decide, fits (by decide), by decide⟩,
    ⟨by unfold WellFormedString; decide, fits (by decide), by decide⟩⟩

/-- Two states that differ in an element beyond the input, in a flag and in the working registers. -/
theorem test_meets_ResultDependsOnInputOnly :
    let s := loaded textMan
    let s' : State := { (s.writeIbuf 4 0xFF) with status := 0x1F, acc := 7, eff := 9 }
    s'.ilen = s.ilen ∧ s'.alpha = s.alpha ∧ s'.rev = s.rev ∧ ∀ k, k < s.ilen.toNat → s'.ibufAt k = s.ibufAt k :=
  ⟨rfl, rfl, rfl, by decide +kernel⟩

theorem test_meets_EncOutputNeverFaultsDec :
    TablesAgree (built State.reset).alpha (built State.reset).rev ∧ 4 * ((bytesMan.length + 2) / 3) ≤ Config.capIn :=
  ⟨built_agree, fits (by decide)⟩

theorem test_meets_DecAndEncFrame :
    (loaded textMan).DecodesClean ∧ (loaded textMan).ilen.toNat ≤ Config.capIn := ⟨clean_man, clean_man.1⟩

/-- A write to a read-only register meets the premise of all three clauses. -/
theorem test_meets_OnlyTheNamedTransactionsWrite :
    step (issuing (.wr 3 7)) = .next State.reset ∧ (∀ rest, (issuing (.wr 3 7)).pending ≠ .reset :: rest) ∧
    (∀ v rest, (issuing (.wr 3 7)).pending ≠ .wr 2 v :: rest) ∧
    (∀ i v rest, (issuing (.wr 3 7)).pending ≠ .wrb i v :: rest) ∧
    (∀ v rest, (issuing (.wr 3 7)).pending ≠ .wr 0 v :: rest) := by
  refine ⟨rfl, ?_, ?_, ?_, ?_⟩ <;> simp [issuing]

theorem test_meets_CommandsTerminate : decTurns 2 ≤ 1 ∧ encTurns 1 ≤ 2 ∧ encFillTurns ≤ 3 ∧ encPadTurns ≤ 3 := by decide

/-- The state after reset, with an ENC for the host to issue and its REV built, meets the invariant and has a next state. -/
theorem test_meets_EveryStepKeepsTheInvariant :
    (built (issuing (.wr 0 3))).Inv ∧ ∃ t, step (built (issuing (.wr 0 3))) = .next t :=
  ⟨⟨rfl, ⟨rfl, rfl, fun a h => absurd h (by simp [built, issuing, State.reset]),
    fun a h => absurd h (by simp [built, issuing, State.reset])⟩, fun a => by simp [built, issuing, State.reset],
    Nat.zero_le _, default_alphabet, rfl⟩, _, rfl⟩

end Sys2Proof.Tests
end

section
/-! PROOFS. The capacities (spec/00_scope.md R3, R4): OBUF has room for the result of every input that fits IBUF. -/

namespace Sys2Proof.Proofs

open Sys2Proof.Machine

/-- DEC never makes its text longer (R79). -/
theorem decodedLen_le_self (n : Nat) : decodedLen n ≤ n := by
  unfold decodedLen
  omega

/-- The size of ENC's result grows with its input (R112). -/
theorem encodedSize_mono {m n : Nat} (h : m ≤ n) : 4 * ((m + 2) / 3) ≤ 4 * ((n + 2) / 3) :=
  Nat.mul_le_mul_left 4 (Nat.div_le_div_right (Nat.add_le_add_right h 2))

theorem capacityWellFormed_iff (n : Nat) : capacityWellFormed n = true ↔ 4 ≤ n ∧ 4 * ((n + 2) / 3) < 2 ^ 32 := by
  simp [capacityWellFormed]

/-- Settles O20: a DEC's result is no longer than its input, which is at most `CAP_IN <= CAP_OUT`; an ENC's is longest
for an input of `CAP_IN` bytes, where it is `CAP_OUT`. -/
theorem capacityBounds : Obligations.CapacityBounds := by
  obtain ⟨hfour, hinout, hword⟩ := capIn_bounds
  refine ⟨(capacityWellFormed_iff _).2 ⟨hfour, hword⟩, rfl, fun n hn => ⟨?_, encodedSize_mono hn⟩⟩
  calc decodedLen n ≤ n := decodedLen_le_self n
    _ ≤ Config.capIn := hn
    _ ≤ Config.capOut := hinout

end Sys2Proof.Proofs
end

section
/-! PROOFS. The host's transactions (spec/20_memory.md R31 to R34, R39 to R42): the step that runs a command, the registers'
writes and reads, and which transaction may write which part of the state. -/

namespace Sys2Proof.Proofs

open Sys2Proof.Machine

/-! ## The step that runs a command -/

/-- A step with a transaction to come is that transaction, on the state with it taken off the host's stream (R41, R42). -/
theorem step_of_pending {s : State} {x : Transaction} {rest : List Transaction} (h : s.pending = x :: rest) :
    step s = transact x { s with pending := rest } := by
  simp only [step, h]

theorem runCommand_of_decode {v : Byte} {i : Instr} (h : decode v = .ok i) (s : State) : runCommand v s = exec i s := by
  simp only [runCommand, h]

theorem decode_of_decodeTableWord {nbits w : Nat} {i : Instr} (h : decodeTableWord nbits w = some i) :
    decode (tableByte nbits w) = .ok i := by
  unfold decodeTableWord at h
  split at h
  · cases h
    assumption
  · cases h

theorem step_of_command {s : State} {v : Nat} {rest : List Transaction} {i : Instr} (hp : s.pending = .wr 0 v :: rest)
    (hd : decode (BitVec.ofNat 8 v) = .ok i) : step s = exec i { s with pending := rest } :=
  (step_of_pending hp).trans (runCommand_of_decode hd _)

/-- Settles O3: a write to CMD is `runCommand`, which runs the decoded command; a table word is such a write, of a value
that its own 8 bits keep whole. -/
theorem stepRunsTheDecodedCommand : Obligations.StepRunsTheDecodedCommand := by
  refine ⟨fun s v rest i => step_of_command, fun s nbits w i h => ?_⟩
  have hd : decode (BitVec.ofNat 8 (tableByte nbits w).toNat) = .ok i := by
    rw [BitVec.ofNat_toNat, BitVec.setWidth_eq]
    exact decode_of_decodeTableWord h
  exact step_of_command (s := s.withFetchWord nbits w) rfl hd

/-! ## Register writes and reads -/

theorem writeReg_of_lt {n : Nat} (h : 3 < n) (s : State) (v : Nat) : s.writeReg n v = .refused (.noSuchRegister n) := by
  obtain ⟨k, rfl⟩ := Nat.exists_eq_add_of_le' h
  rfl

/-- Settles O5: each register number selects one branch of the write. -/
theorem registerWrites : Obligations.RegisterWrites := by
  intro s n v rest hp
  rw [step_of_pending hp]
  refine ⟨?_, ?_, fun h => writeReg_of_lt h _ v⟩
  · rintro (rfl | rfl) <;> rfl
  · rintro rfl
    rfl

theorem regValue_of_lt {n : Nat} (h : 3 < n) (s : State) : s.regValue n = none := by
  obtain ⟨k, rfl⟩ := Nat.exists_eq_add_of_le' h
  rfl

theorem readReg_of_lt {n : Nat} (h : 3 < n) (s : State) : s.readReg n = .refused (.noSuchRegister n) := by
  simp only [State.readReg, regValue_of_lt h]

/-- The bits of STATUS as the host reads it: bit 0 is 1, bits 4:1 are the stored flags, the rest is 0 (R12). -/
theorem statusRead_getLsbD (b : Byte) (k : Nat) :
    (statusRead b).getLsbD k = (k == 0 || (k < 5 && b.getLsbD k)) := by
  by_cases hk : k < 8
  · interval_cases k <;> simp [statusRead]
  · rw [BitVec.getLsbD_of_ge _ _ (by omega)]
    simp [show k ≠ 0 by omega, show ¬ k < 5 by omega]

theorem statusRead_reserved (b : Byte) : (statusRead b).extractLsb' 5 3 = 0#3 := by
  apply BitVec.eq_of_getLsbD_eq
  intro k hk
  simp [statusRead_getLsbD]

theorem statusRead_flags (b : Byte) : (statusRead b).extractLsb' 1 4 = b.extractLsb' 1 4 := by
  apply BitVec.eq_of_getLsbD_eq
  intro k hk
  simp [statusRead_getLsbD, hk, show 1 + k < 5 by omega]

/-- Settles O6: each register number selects its value; STATUS reads as `statusRead` of the stored one. -/
theorem registerReads : Obligations.RegisterReads := by
  intro s n rest hp
  rw [step_of_pending hp]
  refine ⟨?_, ?_, ?_, ?_, fun h => readReg_of_lt h _⟩
  · rintro rfl
    rfl
  · rintro rfl
    exact ⟨statusRead s.status, by simp [statusRead_getLsbD], statusRead_reserved _, statusRead_flags _, rfl⟩
  · rintro rfl
    rfl
  · rintro rfl
    rfl

/-! ## Which transaction writes what -/

/-- No command writes its input (R40). -/
theorem exec_keeps_input {i : Instr} {s t : State} (h : exec i s = .next t) :
    t.ilen = s.ilen ∧ ∀ j, t.ibufAt j = s.ibufAt j := by
  rcases exec_cases h with rfl | ⟨c, -, rfl⟩ | ⟨-, rfl⟩ | ⟨-, rfl⟩ <;> exact ⟨rfl, fun _ => rfl⟩

theorem runCommand_keeps_input {v : Byte} {s t : State} (h : runCommand v s = .next t) :
    t.ilen = s.ilen ∧ ∀ j, t.ibufAt j = s.ibufAt j := by
  rcases runCommand_cases h with ⟨i, -, he⟩ | ⟨-, rfl⟩
  · exact exec_keeps_input he
  · exact ⟨rfl, fun _ => rfl⟩

/-- The frame of every transaction but the reset: the one kind that may write each part of the state (R13, R33, R40). -/
theorem transact_frame {x : Transaction} {s t : State} (h : transact x s = .next t) (hx : x ≠ .reset) :
    ((∀ v, x ≠ .wr 2 v) → t.ilen = s.ilen) ∧
    ((∀ i v, x ≠ .wrb i v) → ∀ j, t.ibufAt j = s.ibufAt j) ∧
    ((∀ v, x ≠ .wr 0 v) → t.olen = s.olen ∧ ∀ j, t.obufAt j = s.obufAt j) := by
  rcases transact_cases h with ⟨v, rfl, hc⟩ | ⟨-, rfl⟩ | ⟨v, rfl, rfl⟩ | ⟨n, v, -, -, rfl⟩ | ⟨i, v, rfl, -, rfl⟩ |
    ⟨i, -, -, rfl⟩ | ⟨i, -, -, rfl⟩ | ⟨rfl, -⟩
  · obtain ⟨hilen, hibuf⟩ := runCommand_keeps_input hc
    exact ⟨fun _ => hilen, fun _ => hibuf, fun hw => absurd rfl (hw v)⟩
  · exact ⟨fun _ => rfl, fun _ _ => rfl, fun _ => ⟨rfl, fun _ => rfl⟩⟩
  · exact ⟨fun hw => absurd rfl (hw v), fun _ _ => rfl, fun _ => ⟨rfl, fun _ => rfl⟩⟩
  · exact ⟨fun _ => rfl, fun _ _ => rfl, fun _ => ⟨rfl, fun _ => rfl⟩⟩
  · exact ⟨fun _ => rfl, fun hw => absurd rfl (hw i v), fun _ => ⟨rfl, fun _ => rfl⟩⟩
  · exact ⟨fun _ => rfl, fun _ _ => rfl, fun _ => ⟨rfl, fun _ => rfl⟩⟩
  · exact ⟨fun _ => rfl, fun _ _ => rfl, fun _ => ⟨rfl, fun _ => rfl⟩⟩
  · exact absurd rfl hx

/-- Settles O51: an idle step changes nothing, and any other has the frame of its transaction. -/
theorem onlyTheNamedTransactionsWrite : Obligations.OnlyTheNamedTransactionsWrite := by
  intro s t h hreset
  rcases step_cases h with ⟨-, rfl⟩ | ⟨x, rest, hp, hx⟩
  · exact ⟨fun _ => rfl, fun _ _ => rfl, fun _ => ⟨rfl, fun _ => rfl⟩⟩
  · obtain ⟨hilen, hibuf, hout⟩ := transact_frame hx (by
      rintro rfl
      exact hreset rest hp)
    refine ⟨fun hw => hilen ?_, fun hw => hibuf ?_, fun hw => hout ?_⟩
    · rintro v rfl
      exact hw v rest hp
    · rintro i v rfl
      exact hw i v rest hp
    · rintro v rfl
      exact hw v rest hp

end Sys2Proof.Proofs
end

section
/-! PROOFS. The state after reset (spec/10_state.md R25) and the invariant of the block: it holds at reset, and every
command, every transaction and so every step keeps it. -/

namespace Sys2Proof.Proofs

open Sys2Proof.Machine

/-! ## The state after reset -/

/-- The default tables are as R4 and R66 to R68 say (R53, R54). -/
theorem romsBuilt_reset : State.reset.RomsBuilt := ⟨by decide +kernel, by decide +kernel⟩

/-- Settles O13: every register and both buffers as R25 says, and the ROMs' default contents. -/
theorem stateAfterReset : Obligations.StateAfterReset :=
  ⟨rfl, rfl, rfl, rfl, rfl, rfl, rfl, rfl, fun _ => rfl, fun _ => rfl, romsBuilt_reset⟩

/-! ## What the invariant follows from -/

/-- Setting a flag does not touch the hardwired bits (R12, R131). -/
theorem statusRead_setErr (b : Byte) (c : ErrCause) : statusRead (setErr b c) = setErr (statusRead b) c := by
  have hmask : errMask c &&& 0x1E#8 = errMask c := by cases c <;> rfl
  calc (b ||| errMask c) &&& 0x1E#8 ||| 0x01#8
      = b &&& 0x1E#8 ||| errMask c &&& 0x1E#8 ||| 0x01#8 := by rw [BitVec.and_or_distrib_right]
    _ = b &&& 0x1E#8 ||| 0x01#8 ||| errMask c := by
      rw [hmask, BitVec.or_assoc, BitVec.or_comm (errMask c), BitVec.or_assoc]

theorem statusHardwired_setFlag {s : State} (h : s.StatusHardwired) (c : ErrCause) : (s.setFlag c).StatusHardwired :=
  (statusRead_setErr s.status c).trans (congrArg (setErr · c) h)

/-- The elements that a filled buffer specifies. -/
theorem filled_isSome_iff {f : Nat → Byte} {n : Nat} {out : Memory} (h : Filled f n out) (a : Nat) :
    (Memory.lookup out a).isSome ↔ a < n := by
  rw [h.2]
  split <;> simp [*]

/-- The invariant of a state whose OBUF is filled up to OLEN, as every reset, fault and completion leaves it. -/
theorem inv_of_filled {s : State} {f : Nat → Byte} (hstatus : s.StatusHardwired) (hwf : Memory.wf s.ibuf = true)
    (hcap : ∀ a, (Memory.lookup s.ibuf a).isSome → a < Config.capIn) (hroms : s.RomsBuilt)
    (hout : Filled f s.olen.toNat s.obuf) (hle : s.olen.toNat ≤ Config.capOut) : s.Inv := by
  have hspec := filled_isSome_iff hout
  exact ⟨hstatus, ⟨hwf, hout.1, hcap, fun a ha => lt_of_lt_of_le ((hspec a).1 ha) hle⟩, hspec, hle, hroms⟩

/-- With no element of either buffer specified and OLEN 0, only STATUS and the ROMs matter. -/
theorem inv_of_empty {s : State} (hstatus : s.StatusHardwired) (hroms : s.RomsBuilt) (hibuf : s.ibuf = [])
    (hobuf : s.obuf = []) (holen : s.olen = 0#32) : s.Inv := by
  refine inv_of_filled (f := s.obufAt) hstatus ?_ ?_ hroms ?_ ?_
  · rw [hibuf]; rfl
  · simp [hibuf]
  · rw [hobuf, holen]; exact Filled.empty _
  · simp [holen]

/-- Settles O53: at reset both buffers are empty, and the ROMs hold the default tables. -/
theorem invariantHoldsAtReset : Obligations.InvariantHoldsAtReset := inv_of_empty rfl romsBuilt_reset rfl rfl rfl

/-! ## The operations keep the invariant -/

theorem inv_resetEvent {s : State} (h : s.Inv) : s.resetEvent.Inv := by
  obtain ⟨-, -, -, -, hroms⟩ := h
  have hstatus : statusRead 0x01#8 = 0x01#8 := rfl
  exact inv_of_empty hstatus hroms rfl rfl rfl

theorem inv_setFlag {s : State} (h : s.Inv) (c : ErrCause) : (s.setFlag c).Inv := by
  obtain ⟨hstatus, hrest⟩ := h
  exact ⟨statusHardwired_setFlag hstatus c, hrest⟩

theorem inv_writeIbuf {s : State} (h : s.Inv) {i : Nat} (hi : i < Config.capIn) (v : Byte) : (s.writeIbuf i v).Inv := by
  obtain ⟨hstatus, ⟨hin, hout, hcapIn, hcapOut⟩, hrest⟩ := h
  refine ⟨hstatus, ⟨Memory.wf_write hin i v, hout, fun a ha => ?_, hcapOut⟩, hrest⟩
  rw [State.writeIbuf_ibuf, Memory.lookup_write] at ha
  split at ha
  · subst a
    exact hi
  · exact hcapIn a ha

theorem inv_raise {s : State} (h : s.Inv) (c : ErrCause) : (s.raise c).Inv := by
  obtain ⟨hstatus, ⟨hin, -, hcapIn, -⟩, -, -, hroms⟩ := h
  exact inv_of_filled (statusHardwired_setFlag hstatus c) hin hcapIn hroms (Filled.empty s.obufAt) (Nat.zero_le _)

/-- A DEC of an input that fits leaves OBUF filled up to its OLEN, which fits OBUF (R79). -/
theorem inv_decDone {s : State} (h : s.Inv) (hfit : s.ilen.toNat ≤ Config.capIn) :
    (s.decDone s.effLen (decRun s.ibufAt s.rev s.effLen)).Inv := by
  obtain ⟨hstatus, ⟨hin, -, hcapIn, -⟩, -, -, hroms⟩ := h
  obtain ⟨-, -, -, hfilled⟩ := decRun_spec s.ibufAt s.rev s.effLen
  obtain ⟨-, -, hroom⟩ := capacityBounds
  have holen : (s.decDone s.effLen (decRun s.ibufAt s.rev s.effLen)).olen.toNat = decodedLen s.effLen := decodedLen_toNat s
  refine inv_of_filled (f := groupSlice (symbolsOf s.ibufAt s.rev)) hstatus hin hcapIn hroms ?_ ?_
  · rw [holen]; exact hfilled
  · rw [holen]; exact (hroom _ ((effLen_le s).trans hfit)).1

/-- An ENC of an input that fits leaves OBUF filled up to its OLEN, which fits OBUF (R112). -/
theorem inv_encDone {s : State} (h : s.Inv) (hfit : s.ilen.toNat ≤ Config.capIn) :
    (s.encDone (encRun s.ibufAt s.alpha s.ilen.toNat)).Inv := by
  obtain ⟨hstatus, ⟨hin, -, hcapIn, -⟩, -, -, hroms⟩ := h
  obtain ⟨-, -, -, -, hfilled⟩ := encRun_spec s.ibufAt s.alpha s.ilen.toNat
  refine inv_of_filled (f := encodedChar s.ibufAt s.alpha s.ilen.toNat) hstatus hin hcapIn hroms ?_ ?_
  · rw [encDone_olen hfit]; exact hfilled
  · rw [encDone_olen hfit]; exact encodedLen_le hfit

theorem inv_exec {i : Instr} {s t : State} (h : s.Inv) (he : exec i s = .next t) : t.Inv := by
  rcases exec_cases he with rfl | ⟨c, -, rfl⟩ | ⟨hfit, rfl⟩ | ⟨hfit, rfl⟩
  · exact h
  · exact inv_raise h c
  · exact inv_decDone h hfit
  · exact inv_encDone h hfit

theorem inv_runCommand {v : Byte} {s t : State} (h : s.Inv) (he : runCommand v s = .next t) : t.Inv := by
  rcases runCommand_cases he with ⟨i, -, he⟩ | ⟨-, rfl⟩
  · exact inv_exec h he
  · exact inv_setFlag h .cmd

/-- Every transaction keeps the invariant; ILEN and what the host has received have no part in it. -/
theorem inv_transact {x : Transaction} {s t : State} (h : s.Inv) (hx : transact x s = .next t) : t.Inv := by
  rcases transact_cases hx with ⟨v, -, hc⟩ | ⟨-, rfl⟩ | ⟨v, -, rfl⟩ | ⟨n, v, -, -, rfl⟩ | ⟨i, v, -, hi, rfl⟩ |
    ⟨i, -, -, rfl⟩ | ⟨i, -, -, rfl⟩ | ⟨-, rfl⟩
  · exact inv_runCommand h hc
  · exact h
  · exact h
  · exact h
  · exact inv_writeIbuf h hi v
  · exact h
  · exact h
  · exact inv_resetEvent h

/-- Settles O54: an idle step changes nothing, and every transaction keeps the invariant. -/
theorem everyStepKeepsTheInvariant : Obligations.EveryStepKeepsTheInvariant := by
  intro s t h hs
  rcases step_cases hs with ⟨-, rfl⟩ | ⟨x, rest, -, hx⟩
  · exact h
  · exact inv_transact (s := { s with pending := rest }) h hx

end Sys2Proof.Proofs
end

section
/-! PROOFS. The buffers and their frames (spec/20_memory.md R32 to R42): what the buffer transactions do inside the buffers
and outside them, that a read has no side effect, and what a command, DEC and ENC above all, leaves unchanged. -/

namespace Sys2Proof.Proofs

open Sys2Proof.Machine

/-! ## The buffer transactions (R32, R34) -/

theorem transact_wrb_of_lt {i : Nat} (h : i < Config.capIn) (v : Byte) (s : State) :
    transact (.wrb i v) s = .next (s.writeIbuf i v) := if_pos h

theorem transact_wrb_of_le {i : Nat} (h : Config.capIn ≤ i) (v : Byte) (s : State) :
    transact (.wrb i v) s = .refused (.noSuchIbufElement i) := if_neg (Nat.not_lt.2 h)

theorem transact_rdbi_of_lt {i : Nat} (h : i < Config.capIn) (s : State) :
    transact (.rdbi i) s = .next (s.give ((s.ibufAt i).setWidth 32)) := if_pos h

theorem transact_rdbi_of_le {i : Nat} (h : Config.capIn ≤ i) (s : State) :
    transact (.rdbi i) s = .refused (.noSuchIbufElement i) := if_neg (Nat.not_lt.2 h)

theorem transact_rdb_of_lt {i : Nat} (h : i < Config.capOut) (s : State) :
    transact (.rdb i) s = .next (s.give ((s.obufAt i).setWidth 32)) := if_pos h

theorem transact_rdb_of_le {i : Nat} (h : Config.capOut ≤ i) (s : State) :
    transact (.rdb i) s = .refused (.noSuchObufElement i) := if_neg (Nat.not_lt.2 h)

/-- Settles O7: the step is the transaction, which completes or is refused as its index lies in the buffer or not. -/
theorem bufferTransactions : Obligations.BufferTransactions := by
  intro s i v rest
  refine ⟨fun hp => ?_, fun hp => ?_, fun hp => ?_⟩ <;> rw [step_of_pending hp]
  · exact ⟨fun h => transact_wrb_of_lt h v _, fun h => transact_wrb_of_le h v _⟩
  · exact ⟨fun h => transact_rdbi_of_lt h _, fun h => transact_rdbi_of_le h _⟩
  · exact ⟨fun h => transact_rdb_of_lt h _, fun h => transact_rdb_of_le h _⟩

/-- Settles O8: `ibufAt_writeIbuf` reads IBUF after the write, and the write changes no other field. -/
theorem writtenElementReadsBack : Obligations.WrittenElementReadsBack := by
  intro s i v hi
  have hread := fun j => ibufAt_writeIbuf s i j v
  exact ⟨s.writeIbuf i v, transact_wrb_of_lt hi v s, (hread i).trans (if_pos rfl),
    fun j hj => (hread j).trans (if_neg hj), fun _ => rfl, rfl, rfl, rfl, rfl, rfl, rfl, rfl, rfl, rfl, rfl, rfl, rfl⟩

/-! ## Reads (R39) -/

theorem transact_rd_of_some {s : State} {n : Nat} {v : Word} (h : s.regValue n = some v) :
    transact (.rd n) s = .next (s.give v) := by
  simp only [transact, State.readReg, h]

theorem transact_rd_of_none {s : State} {n : Nat} (h : s.regValue n = none) :
    transact (.rd n) s = .refused (.noSuchRegister n) := by
  simp only [transact, State.readReg, h]

/-- Settles O9: a read that completes gives a value that does not depend on what the host has received. -/
theorem readsHaveNoSideEffect : Obligations.ReadsHaveNoSideEffect := by
  rintro s t x i (rfl | rfl | rfl) h
  · cases hv : s.regValue i with
    | none =>
      rw [transact_rd_of_none hv] at h
      cases h
    | some v =>
      rw [transact_rd_of_some hv] at h
      cases h
      have hagain : (s.give v).regValue i = some v := hv
      exact ⟨v, rfl, transact_rd_of_some hagain⟩
  · rcases Nat.lt_or_ge i Config.capIn with hi | hi
    · rw [transact_rdbi_of_lt hi] at h
      cases h
      exact ⟨_, rfl, transact_rdbi_of_lt hi _⟩
    · rw [transact_rdbi_of_le hi] at h
      cases h
  · rcases Nat.lt_or_ge i Config.capOut with hi | hi
    · rw [transact_rdb_of_lt hi] at h
      cases h
      exact ⟨_, rfl, transact_rdb_of_lt hi _⟩
    · rw [transact_rdb_of_le hi] at h
      cases h

/-! ## What every command leaves unchanged (R40) -/

/-- A write to CMD of any value completes (R56, R159). -/
theorem runCommand_next (v : Byte) (s : State) : ∃ t, runCommand v s = .next t := by
  cases hd : decode v with
  | ok i =>
    rw [runCommand_of_decode hd]
    exact exec_next i s
  | error r => exact ⟨s.setFlag .cmd, by simp only [runCommand, hd]⟩

/-- Settles O49: every write to CMD completes, and by `runCommand_keeps_input` with its input as it was. -/
theorem commandsKeepTheirInput : Obligations.CommandsKeepTheirInput := by
  intro v s
  obtain ⟨t, h⟩ := runCommand_next v s
  exact ⟨t, h, runCommand_keeps_input h⟩

/-- No command writes the ROMs or makes IBUF unspecified (R40, R69). -/
theorem exec_keeps_roms {i : Instr} {s t : State} (h : exec i s = .next t) :
    t.alpha = s.alpha ∧ t.rev = s.rev ∧ t.ibufGen = s.ibufGen := by
  rcases exec_cases h with rfl | ⟨c, -, rfl⟩ | ⟨-, rfl⟩ | ⟨-, rfl⟩ <;> exact ⟨rfl, rfl, rfl⟩

/-! ## DEC and ENC: STATUS, the working registers and OBUF from OLEN on (R86, R108, R135) -/

theorem filled_lookup_of_le {f : Nat → Byte} {n j : Nat} {out : Memory} (h : Filled f n out) (hj : n ≤ j) :
    Memory.lookup out j = none := by
  rw [h.2, if_neg (Nat.not_lt.2 hj)]

/-- A DEC completes on a clean input, and on any other it raises one of its three faults (R86, R137). -/
theorem execDec_cases {s t : State} (h : exec .dec s = .next t) :
    (¬ s.DecodesClean ∧ ∃ c, (c = .cap ∨ c = .len ∨ c = .char) ∧ t = s.raise c) ∨
    t = s.decDone s.effLen (decRun s.ibufAt s.rev s.effLen) := by
  cases h
  rcases decWith_cases Config.capIn s with ⟨hlong, e⟩ | ⟨-, hpart, e⟩ | ⟨-, -, ⟨i, hi, hbad⟩, e⟩ | ⟨-, -, -, e⟩
  · exact .inl ⟨fun ⟨hfit, _⟩ => Nat.not_lt.2 hfit hlong, .cap, .inl rfl, e⟩
  · exact .inl ⟨fun ⟨_, hwhole, _⟩ => hpart hwhole, .len, .inr (.inl rfl), e⟩
  · exact .inl ⟨fun ⟨_, _, hgood⟩ => by simp [hgood i hi] at hbad, .char, .inr (.inr rfl), e⟩
  · exact .inr e

/-- An ENC completes on an input that fits, and on any other it raises `ERR_CAP` (R100, R133). -/
theorem execEnc_cases {s t : State} (h : exec .enc s = .next t) :
    (Config.capIn < s.ilen.toNat ∧ t = s.raise .cap) ∨
    (s.ilen.toNat ≤ Config.capIn ∧ t = s.encDone (encRun s.ibufAt s.alpha s.ilen.toNat)) := by
  cases h
  exact encWith_cases Config.capIn s

theorem execDec_frame {s t : State} (h : exec .dec s = .next t) :
    (∀ k, k ≠ 2 → k ≠ 3 → k ≠ 4 → t.status.getLsbD k = s.status.getLsbD k) ∧
    (s.DecodesClean → t.status = s.status ∧ t.acc = s.acc ∧ t.nbits = s.nbits) ∧
    ∀ j, t.olen.toNat ≤ j → Memory.lookup t.obuf j = none := by
  rcases execDec_cases h with ⟨hn, c, hc, rfl⟩ | rfl
  · refine ⟨fun k hcap hlen hchar => setErr_getLsbD _ c k ?_, fun hclean => absurd hclean hn, fun _ _ => rfl⟩
    rcases hc with rfl | rfl | rfl
    · exact hcap
    · exact hlen
    · exact hchar
  · obtain ⟨-, -, -, hfilled⟩ := decRun_spec s.ibufAt s.rev s.effLen
    refine ⟨fun _ _ _ _ => rfl, fun _ => ⟨rfl, rfl, rfl⟩, fun j hj => filled_lookup_of_le hfilled ?_⟩
    rwa [State.decDone_olen, decodedLen_toNat] at hj

theorem execEnc_frame {s t : State} (h : exec .enc s = .next t) :
    (∀ k, k ≠ 2 → t.status.getLsbD k = s.status.getLsbD k) ∧
    (s.ilen.toNat ≤ Config.capIn → t.status = s.status ∧ t.eff = s.eff) ∧
    ∀ j, t.olen.toNat ≤ j → Memory.lookup t.obuf j = none := by
  rcases execEnc_cases h with ⟨hlong, rfl⟩ | ⟨hfit, rfl⟩
  · exact ⟨fun k hcap => setErr_getLsbD _ .cap k hcap, fun hfit => absurd hlong (Nat.not_lt.2 hfit), fun _ _ => rfl⟩
  · obtain ⟨-, -, -, -, hfilled⟩ := encRun_spec s.ibufAt s.alpha s.ilen.toNat
    refine ⟨fun _ _ => rfl, fun _ => ⟨rfl, rfl⟩, fun j hj => filled_lookup_of_le hfilled ?_⟩
    rwa [encDone_olen hfit] at hj

/-- A command completes with the frame that all commands share (R40, R69) and whatever else holds of its next state. -/
theorem exec_frame {i : Instr} {s : State} {P : State → Prop} (hP : ∀ t, exec i s = .next t → P t) :
    ∃ t, exec i s = .next t ∧ t.ilen = s.ilen ∧ (∀ j, t.ibufAt j = s.ibufAt j) ∧ t.alpha = s.alpha ∧ t.rev = s.rev ∧
      t.ibufGen = s.ibufGen ∧ t.pending = s.pending ∧ t.received = s.received ∧ P t := by
  obtain ⟨t, h⟩ := exec_next i s
  obtain ⟨hilen, hibuf⟩ := exec_keeps_input h
  obtain ⟨halpha, hrev, hgen⟩ := exec_keeps_roms h
  obtain ⟨hreceived, hpending⟩ := exec_host h
  exact ⟨t, h, hilen, hibuf, halpha, hrev, hgen, hpending, hreceived, hP t h⟩

/-- Settles O50: the frame of every command, with what is DEC's and what is ENC's own. -/
theorem decAndEncFrame : Obligations.DecAndEncFrame :=
  fun _ => ⟨exec_frame fun _ => execDec_frame, exec_frame fun _ => execEnc_frame⟩

end Sys2Proof.Proofs
end

section
/-! PROOFS. The command words (spec/30_encoding.md R45, R55, R56), the default tables (R53, R54), the two operand
assemblies (R49, R50, R61, R103 to R106), a DEC's invalid character (R57, R136), and the host sequences that the
pseudo-instructions stand for (R60, R153). -/

namespace Sys2Proof.Proofs

open Sys2Proof.Machine

/-! ## Command words (R45, R55, R56) -/

/-- Settles O1: the words of the table, each decoded. -/
theorem commandWordsDecode : Obligations.CommandWordsDecode := ⟨rfl, rfl, rfl, rfl, rfl, rfl, rfl, rfl⟩

theorem encoding_statement (i : Instr) : Laws.Encoding.Statement i := by
  cases i with
  | nop => exact Laws.Encoding.nop
  | tbl => exact Laws.Encoding.tbl
  | dec => exact Laws.Encoding.dec
  | enc => exact Laws.Encoding.enc

@[simp] theorem decode_encode (i : Instr) : decode (encode i) = .ok i := by
  obtain ⟨-, -, -, hdecode, -⟩ := encoding_statement i
  exact hdecode

theorem encode_of_decode {v : Byte} {i : Instr} (h : decode v = .ok i) : encode i = v := by
  obtain ⟨-, -, -, -, honly⟩ := encoding_statement i
  exact (honly v h).symm

theorem tableByte_toNat (v : Byte) : tableByte 8 v.toNat = v := by
  rw [tableByte, Nat.mod_eq_of_lt v.isLt, BitVec.ofNat_toNat, BitVec.setWidth_eq]

theorem decodeTableWord_of_decode {v : Byte} {i : Instr} (h : decode v = .ok i) : decodeTableWord 8 v.toNat = some i := by
  simp only [decodeTableWord, tableByte_toNat, h]

/-- The decoder accepts a word by its reserved bits alone (R55, R56). -/
theorem exists_decode_iff (v : Byte) : (∃ i, decode v = .ok i) ↔ rsvField v = 0#6 := by
  unfold decode
  split <;> simp [*]

/-- The words below 4 are those with bits 7:2 zero (R56). -/
theorem commandWellFormed_iff (v : Byte) : commandWellFormed v = true ↔ rsvField v = 0#6 := by
  have hv := v.isLt
  rw [commandWellFormed, decide_eq_true_iff, rsvField, ← BitVec.toNat_inj, BitVec.extractLsb'_toNat,
    Nat.shiftRight_eq_div_pow, BitVec.toNat_ofNat]
  omega

/-- Settles O2: each command's word is read back as it, and the reserved bits alone decide what is a command. -/
theorem decodeInvertsEncode : Obligations.DecodeInvertsEncode :=
  ⟨fun i _ => ⟨decode_encode i, decodeTableWord_of_decode (decode_encode i)⟩, fun _ _ => encode_of_decode,
    exists_decode_iff, commandWellFormed_iff⟩

/-! ## The default tables (R53, R54) -/

/-- Settles O17: the ROMs of the state after reset are the default tables. -/
theorem defaultTablesAgree : Obligations.DefaultTablesAgree := by
  obtain ⟨halpha, hrev⟩ := romsBuilt_reset
  exact ⟨hrev, halpha⟩

/-! ## The group word (R49) -/

/-- A slice that straddles the seam of two parts takes the low bits of the upper and the high bits of the lower. -/
theorem extractLsb'_append_of_straddle {v w k m n : Nat} (x : BitVec v) (y : BitVec w) (h : w = k + m) :
    (x ++ y).extractLsb' k (n + m) = x.extractLsb' 0 n ++ y.extractLsb' k m := by
  rw [← BitVec.extractLsb'_append_extractLsb'_eq_extractLsb' h, BitVec.extractLsb'_append_eq_of_le (Nat.le_refl w),
    BitVec.extractLsb'_append_eq_of_add_le (Nat.le_of_eq h.symm), Nat.sub_self]

/-- The shifts and ORs of R83 put the four symbol values side by side. -/
theorem groupWord_eq_append (s0 s1 s2 s3 : Sym) : groupWord s0 s1 s2 s3 = s0 ++ s1 ++ s2 ++ s3 := by
  have h : (s0 ++ s1 ++ s2 ++ s3).setWidth 24 = groupWord s0 s1 s2 s3 :=
    BitVec.setWidth_append_append_append_eq_shiftLeft_setWidth_or (b := s0) (b' := s1) (b'' := s2) (b''' := s3)
  rw [← h, BitVec.setWidth_eq]

theorem groupByte0_append (s0 s1 s2 s3 : Sym) :
    groupByte0 (s0 ++ s1 ++ s2 ++ s3) = s0 ++ s1.extractLsb' 4 2 :=
  calc (s0 ++ s1 ++ s2 ++ s3).extractLsb' 16 8
      = (s0 ++ s1).extractLsb' 4 8 := by
        rw [BitVec.extractLsb'_append_eq_of_le (by decide), BitVec.extractLsb'_append_eq_of_le (by decide)]
    _ = s0.extractLsb' 0 6 ++ s1.extractLsb' 4 2 := extractLsb'_append_of_straddle (n := 6) (k := 4) (m := 2) s0 s1 rfl
    _ = s0 ++ s1.extractLsb' 4 2 := by rw [BitVec.extractLsb'_eq_self]

theorem groupByte1_append (s0 s1 s2 s3 : Sym) :
    groupByte1 (s0 ++ s1 ++ s2 ++ s3) = s1.extractLsb' 0 4 ++ s2.extractLsb' 2 4 :=
  calc (s0 ++ s1 ++ s2 ++ s3).extractLsb' 8 8
      = (s0 ++ s1 ++ s2).extractLsb' 2 8 := BitVec.extractLsb'_append_eq_of_le (by decide)
    _ = (s0 ++ s1).extractLsb' 0 4 ++ s2.extractLsb' 2 4 :=
        extractLsb'_append_of_straddle (n := 4) (k := 2) (m := 4) (s0 ++ s1) s2 rfl
    _ = s1.extractLsb' 0 4 ++ s2.extractLsb' 2 4 := by rw [BitVec.extractLsb'_append_eq_of_add_le (by decide)]

theorem groupByte2_append (s0 s1 s2 s3 : Sym) :
    groupByte2 (s0 ++ s1 ++ s2 ++ s3) = s2.extractLsb' 0 2 ++ s3 :=
  calc (s0 ++ s1 ++ s2 ++ s3).extractLsb' 0 8
      = (s0 ++ s1 ++ s2).extractLsb' 0 2 ++ s3.extractLsb' 0 6 :=
        extractLsb'_append_of_straddle (n := 2) (k := 0) (m := 6) (s0 ++ s1 ++ s2) s3 rfl
    _ = s2.extractLsb' 0 2 ++ s3 := by
        rw [BitVec.extractLsb'_append_eq_of_add_le (by decide), BitVec.extractLsb'_eq_self]

/-- Settles O40: the group word is the concatenation, and each of its bytes is a slice of that. -/
theorem groupWordIsConcatenation : Obligations.GroupWordIsConcatenation := by
  intro s0 s1 s2 s3
  rw [groupWord_eq_append]
  exact ⟨rfl, groupByte0_append s0 s1 s2 s3, groupByte1_append s0 s1 s2 s3, groupByte2_append s0 s1 s2 s3⟩

/-! ## The accumulator window (R50, R103 to R106) -/

theorem windowOffset_of_toInt {nbits : BitCount} {n : Nat} (h : nbits.toInt = (n : Int)) :
    windowOffset nbits = 24 - n := by
  unfold windowOffset
  omega

/-- With zeros below the `n` buffered bits, the byte that enters stands at bits `31 - n` to `24 - n` (R50, R103). -/
theorem windowFill_extractLsb' {acc : Word} {nbits : BitCount} {n : Nat} (hn : nbits.toInt = (n : Int)) (hle : n ≤ 24)
    (hzero : ∀ p, n ≤ p → acc.getMsbD p = false) (b : Byte) :
    (windowFill acc nbits b).extractLsb' (24 - n) 8 = b := by
  apply BitVec.eq_of_getMsbD_eq
  intro k hk
  have hpos : 32 - (24 - n + 8 - k) = n + k := by omega
  have hin : 24 - n + 8 - k ≤ 32 := by omega
  rw [BitVec.getMsbD_extractLsb', hpos, windowFill_getMsbD acc nbits b n hn hle]
  simp [hzero, hk, hin]

/-- Settles O41: `windowFill_getMsbD` says every bit of the window after the fill; the byte is read off it whole. -/
theorem windowFillPlacesTheByte : Obligations.WindowFillPlacesTheByte := by
  intro acc nbits b n hcount hn hzero
  have hle : n ≤ 24 := by omega
  have hbit := windowFill_getMsbD acc nbits b n hn hle
  refine ⟨windowOffset_of_toInt hn, windowFill_extractLsb' hn hle hzero b, fun p hp => ?_, fun p hp => ?_⟩
  · simp [hbit, Nat.not_le.2 hp]
  · simp [hbit, hzero p (by omega), Nat.not_lt.2 hp]

theorem windowSelect_eq_extractLsb' (acc : Word) : windowSelect acc = acc.extractLsb' 26 6 :=
  BitVec.setWidth_ushiftRight_eq_extractLsb

theorem windowSelect_toNat (acc : Word) : (windowSelect acc).toNat = acc.toNat / 2 ^ 26 := by
  have hacc := acc.isLt
  rw [windowSelect_eq_extractLsb', BitVec.extractLsb'_toNat, Nat.shiftRight_eq_div_pow]
  omega

theorem windowShift_toNat (acc : Word) : (windowShift acc).toNat = acc.toNat * 2 ^ 6 % 2 ^ 32 := by
  rw [windowShift, BitVec.toNat_shiftLeft, Nat.shiftLeft_eq]

/-- The shift keeps the 26 bits below the selected ones, six places up (R106). -/
theorem windowShift_extractLsb' (acc : Word) : (windowShift acc).extractLsb' 6 26 = acc.extractLsb' 0 26 := by
  apply BitVec.eq_of_getLsbD_eq
  intro k hk
  have hk' : 6 + k < 32 := by omega
  simp [windowShift, hk, hk', -BitVec.getLsbD_eq_getElem]

/-- Settles O42: the select and the shift cut ACC into its upper 6 and its lower 26 bits. -/
theorem windowSelectsAndShifts : Obligations.WindowSelectsAndShifts := by
  intro acc
  refine ⟨windowSelect_toNat acc, windowSelect_eq_extractLsb' acc, windowShift_toNat acc, ?_⟩
  rw [windowSelect_eq_extractLsb', windowShift_extractLsb']
  exact (BitVec.extractLsb'_append_extractLsb' (w := 6) (len := 26)).symm

/-! ## An invalid character (R57, R135, R136) -/

/-- With both length checks passed, an invalid character below EFF is what DEC faults on (R137). -/
theorem execDec_invalid {s : State} {i : Nat} (hfit : s.ilen.toNat ≤ Config.capIn) (hwhole : s.ilen.toNat % 4 = 0)
    (hi : i < s.effLen) (hbad : s.symbolAt i = false) : exec .dec s = .next (s.raise .char) := by
  show execDec s = _
  rcases decWith_cases Config.capIn s with ⟨hlong, -⟩ | ⟨-, hpart, -⟩ | ⟨-, -, -, e⟩ | ⟨-, -, hgood, -⟩
  · exact absurd hlong (Nat.not_lt.2 hfit)
  · exact absurd hwhole hpart
  · rw [execDec, e]
  · simp [hgood i hi] at hbad

/-- Settles O24: DEC raises `ERR_CHAR`, with the effect of every fault of DEC. -/
theorem invalidCharacterRaisesErrChar : Obligations.InvalidCharacterRaisesErrChar := by
  intro s i hfit hwhole hi hinv
  have hbad : s.symbolAt i = false := by simp [State.symbolAt, hinv]
  exact ⟨s.raise .char, execDec_invalid hfit hwhole hi hbad, raise_faultEffect s .char⟩

/-! ## Host sequences (R60, R153)

A state that waits for the transactions `p` is written `{ s with pending := p }`, so that a run is followed by taking
transactions off `p` while `s` says what the block holds. -/

theorem runSteps_add {m n : Nat} {s t : State} (h : runSteps m s = .next t) : runSteps (m + n) s = runSteps n t := by
  induction m generalizing s with
  | zero =>
    cases h
    rw [Nat.zero_add]
  | succ m ih =>
    rw [Nat.succ_add]
    cases hs : step s with
    | next u =>
      rw [runSteps_step hs] at h ⊢
      exact ih h
    | fault f => cases f
    | refused r => simp [runSteps, hs] at h

/-- The run of a host sequence, one transaction at a time. -/
theorem runSteps_cons {k : Nat} {x : Transaction} {p : List Transaction} {s t : State}
    (h : transact x { s with pending := p } = .next t) :
    runSteps (k + 1) { s with pending := x :: p } = runSteps k t :=
  runSteps_step ((step_of_pending rfl).trans h)

/-- The `WRB`s of a host sequence write the input's elements one after another. -/
theorem runSteps_loadFrom (b : List Byte) (k : Nat) (s : State) (p : List Transaction)
    (h : k + b.length ≤ Config.capIn) :
    runSteps b.length { s with pending := loadFrom k b ++ p } = .next { State.loadAt k b s with pending := p } := by
  induction b generalizing k s with
  | nil => rfl
  | cons c b ih =>
    rw [List.length_cons] at h ⊢
    exact (runSteps_cons (transact_wrb_of_lt (by omega) c _)).trans (ih (k + 1) (s.writeIbuf k c) (by omega))

theorem transact_issue (i : Instr) (s : State) : transact (issue i) s = exec i s := by
  have hword : BitVec.ofNat 8 (encode i).toNat = encode i := by rw [BitVec.ofNat_toNat, BitVec.setWidth_eq]
  refine runCommand_of_decode ?_ s
  rw [hword, decode_encode]

/-- The four transactions after the `WRB`s: the length, the command, and the reads of STATUS and OLEN. -/
theorem runSteps_callTail {i : Instr} {n : Nat} {s t : State} (p : List Transaction)
    (h : exec i (s.writeIlen (BitVec.ofNat 32 n)) = .next t) :
    runSteps 4 { s with pending := [.wr regIlen n, issue i, .rd regStatus, .rd regOlen] ++ p } =
      .next { t with pending := p, received := t.olen :: (statusRead t.status).setWidth 32 :: t.received } := by
  have hlen : ∀ q, transact (.wr regIlen n) { s with pending := q } =
      .next { s.writeIlen (BitVec.ofNat 32 n) with pending := q } := fun _ => rfl
  have hcmd : ∀ q, transact (issue i) { s.writeIlen (BitVec.ofNat 32 n) with pending := q } =
      .next { t with pending := q } := fun q => (transact_issue i _).trans (exec_pending q h)
  calc runSteps 4 { s with pending := [.wr regIlen n, issue i, .rd regStatus, .rd regOlen] ++ p }
      = runSteps 3 { s.writeIlen (BitVec.ofNat 32 n) with pending := [issue i, .rd regStatus, .rd regOlen] ++ p } :=
        runSteps_cons (hlen _)
    _ = runSteps 2 { t with pending := [.rd regStatus, .rd regOlen] ++ p } := runSteps_cons (hcmd _)
    _ = runSteps 1 { t.give ((statusRead t.status).setWidth 32) with pending := [.rd regOlen] ++ p } :=
        runSteps_cons (transact_rd_of_some rfl)
    _ = .next { t with pending := p, received := t.olen :: (statusRead t.status).setWidth 32 :: t.received } :=
        runSteps_cons (transact_rd_of_some rfl)

/-- Settles O11: the `WRB`s load the input, and the four transactions after them set ILEN, run the command and read
STATUS and OLEN. The command leaves the host's stream alone, so it may be taken to run with `rest` to come. -/
theorem hostCallRunsTheCommand : Obligations.HostCallRunsTheCommand := by
  intro s i b rest hp hfit
  obtain ⟨t, ht⟩ := exec_next i (s.loadInput b)
  obtain ⟨hreceived, -⟩ := exec_host ht
  refine ⟨{ t with pending := rest }, exec_pending rest ht, ?_⟩
  have hload := runSteps_loadFrom b 0 s ([.wr regIlen b.length, issue i, .rd regStatus, .rd regOlen] ++ rest) (by omega)
  rw [← List.append_assoc, ← callSequence, ← hp] at hload
  rw [runSteps_add hload, runSteps_callTail rest ht, hreceived, loadInput_frame]

/-- Reads of OBUF return the elements read, the latest first, and leave all else as it was (R39). -/
theorem runSteps_rdb (l : List Nat) (s : State) (p : List Transaction) (h : ∀ j ∈ l, j < Config.capOut) :
    runSteps l.length { s with pending := l.map .rdb ++ p } =
      .next { s with
        pending := p
        received := (l.map fun j => (s.obufAt j).setWidth 32).reverse ++ s.received } := by
  induction l generalizing s with
  | nil => rfl
  | cons j l ih =>
    obtain ⟨hj, hl⟩ := List.forall_mem_cons.1 h
    refine (runSteps_cons (transact_rdb_of_lt hj _)).trans ((ih (s.give ((s.obufAt j).setWidth 32)) hl).trans ?_)
    rw [List.map_cons, List.reverse_cons, List.append_assoc]
    rfl

/-- Settles O12: the read-back is the reads at `0`, `1`, ... `m - 1`, all of which lie in OBUF. -/
theorem readBackReturnsTheElements : Obligations.ReadBackReturnsTheElements := by
  intro s m rest hp hm
  have hread := runSteps_rdb (List.range m) s rest fun j hj => lt_of_lt_of_le (List.mem_range.1 hj) hm
  rwa [← readBack, ← hp, List.length_range] at hread

end Sys2Proof.Proofs
end

section
/-! PROOFS. The two tables and the commands that move no data (spec/40_table_and_control.md R65 to R72): REV inverts ALPHA,
no step writes a table, DEC sees of REV only the entries of the characters below EFF, and NOP and TBL change nothing. -/

namespace Sys2Proof.Proofs

open Sys2Proof.Machine

/-! ## What the tables hold (R66 to R68) -/

/-- Settles O15: a built REV agrees with its alphabet, which gives both directions. -/
theorem reverseTableInvertsAlphabet : Obligations.ReverseTableInvertsAlphabet := by
  intro s hroms
  obtain ⟨-, hentry, -⟩ := hroms.agree
  have hagree := hroms.agree
  exact ⟨fun i => ⟨hentry i, hagree.inv_symbol i, hagree.val_symbol i⟩, fun _ => hagree.symbol_of_inv⟩

/-- A built REV marks every code that is no data symbol, with `VAL` 0 (R67, R68). -/
theorem revAt_other_of_romsBuilt {s : State} (h : s.RomsBuilt) {c : Byte} (hc : ∀ i : Sym, alphaAt s.alpha i ≠ c) :
    revAt s.rev c = 0x40#7 := by
  obtain ⟨-, hrev⟩ := h
  rw [hrev, revAt_buildRev, revEntryFor_other hc, revNoSymbol]

/-- Settles O16: the pad is one of the codes that are no data symbol, since the 65 codes are pairwise different. -/
theorem otherCodesAreMarked : Obligations.OtherCodesAreMarked := by
  intro s hroms
  obtain ⟨hdistinct, -, -⟩ := hroms.agree
  exact ⟨revAt_other_of_romsBuilt hroms (alphaAt_ne_pad hdistinct), fun _ => revAt_other_of_romsBuilt hroms⟩

/-! ## No step writes a table (R69) -/

theorem runCommand_keeps_roms {v : Byte} {s t : State} (h : runCommand v s = .next t) :
    t.alpha = s.alpha ∧ t.rev = s.rev := by
  rcases runCommand_cases h with ⟨i, -, he⟩ | ⟨-, rfl⟩
  · obtain ⟨halpha, hrev, -⟩ := exec_keeps_roms he
    exact ⟨halpha, hrev⟩
  · exact ⟨rfl, rfl⟩

theorem transact_keeps_roms {x : Transaction} {s t : State} (h : transact x s = .next t) :
    t.alpha = s.alpha ∧ t.rev = s.rev := by
  rcases transact_cases h with ⟨v, -, hc⟩ | ⟨-, rfl⟩ | ⟨v, -, rfl⟩ | ⟨n, v, -, -, rfl⟩ | ⟨i, v, -, -, rfl⟩ |
    ⟨i, -, -, rfl⟩ | ⟨i, -, -, rfl⟩ | ⟨-, rfl⟩
  · exact runCommand_keeps_roms hc
  all_goals exact ⟨rfl, rfl⟩

/-- Settles O18: an idle step changes nothing, and no transaction writes a table, the reset among them. -/
theorem tablesNeverChange : Obligations.TablesNeverChange := by
  intro s t h
  rcases step_cases h with ⟨-, rfl⟩ | ⟨x, rest, -, hx⟩
  · exact ⟨rfl, rfl⟩
  · exact transact_keeps_roms (s := { s with pending := rest }) hx

/-! ## What DEC sees of REV (R82, R88) -/

/-- The chunk loop stays valid exactly when every character below EFF is a data symbol (R82). -/
theorem decRun_valid_iff (rd : Nat → Byte) (rev : RevTable) (eff : Nat) :
    (decRun rd rev eff).bad = false ↔ ∀ i, i < eff → revInv (revAt rev (rd i)) = false := by
  obtain ⟨-, -, hbad, -⟩ := decRun_spec rd rev eff
  rw [← Bool.not_eq_true, hbad]
  simp

theorem decRun_bad_congr {rd : Nat → Byte} {rev rev' : RevTable} {eff : Nat}
    (h : ∀ i, i < eff → revInv (revAt rev' (rd i)) = revInv (revAt rev (rd i))) :
    (decRun rd rev' eff).bad = (decRun rd rev eff).bad := by
  obtain ⟨-, -, hbad, -⟩ := decRun_spec rd rev eff
  obtain ⟨-, -, hbad', -⟩ := decRun_spec rd rev' eff
  rw [Bool.eq_iff_iff, hbad, hbad']
  exact exists_congr fun i => and_congr_right fun hi => by rw [h i hi]

/-- The chunk loop depends on the entries of the characters below EFF only. -/
theorem decRun_congr_entries {rd : Nat → Byte} {rev rev' : RevTable} {eff : Nat}
    (h : ∀ i, i < eff → revAt rev' (rd i) = revAt rev (rd i)) : decRun rd rev' eff = decRun rd rev eff := by
  obtain ⟨hout, hiidx, hoidx⟩ := decRun_congr fun i hi => congrArg revVal (h i hi)
  have hbad := decRun_bad_congr fun i hi => congrArg revInv (h i hi)
  calc decRun rd rev' eff
      = ⟨(decRun rd rev' eff).iidx, (decRun rd rev' eff).oidx, (decRun rd rev' eff).bad, (decRun rd rev' eff).out⟩ := rfl
    _ = decRun rd rev eff := by rw [hiidx, hoidx, hbad, hout]

section

variable {s : State} {rev' : RevTable}
  (hinv : ∀ i, i < s.effLen → revInv (revAt rev' (s.ibufAt i)) = revInv (revAt s.rev (s.ibufAt i)))
  (hval : ∀ i, i < s.effLen → revInv (revAt s.rev (s.ibufAt i)) = false →
    revAt rev' (s.ibufAt i) = revAt s.rev (s.ibufAt i))
include hinv hval

/-- The end of DEC through another table: with a character marked both runs raise `ERR_CHAR`, and with none the two
chunk loops are the same. -/
theorem decEnd_of_agreeing_rev :
    ({ s with rev := rev' } : State).decEnd s.effLen (decRun s.ibufAt rev' s.effLen) =
      { s.decEnd s.effLen (decRun s.ibufAt s.rev s.effLen) with rev := rev' } := by
  cases hbad : (decRun s.ibufAt s.rev s.effLen).bad with
  | true =>
    rw [State.decEnd, State.decEnd, if_pos ((decRun_bad_congr hinv).trans hbad), if_pos hbad]
    rfl
  | false =>
    have hvalid := (decRun_valid_iff _ _ _).1 hbad
    rw [decRun_congr_entries fun i hi => hval i hi (hvalid i hi)]
    simp only [State.decEnd, hbad]
    rfl

/-- A DEC through another table leaves the same but for the table, if below EFF the two tables mark the same characters
and give every other the same entry. -/
theorem execDec_of_agreeing_rev {t : State} (h : exec .dec s = .next t) :
    exec .dec { s with rev := rev' } = .next { t with rev := rev' } := by
  cases h
  refine congrArg Host.Outcome.next ?_
  rw [decWith, decWith]
  split
  · rfl
  · split
    · rfl
    · exact decEnd_of_agreeing_rev hinv hval

end

/-- Settles O32: the two tables agree on every code, so they agree on the characters below EFF. -/
theorem decIgnoresValOfNonSymbols : Obligations.DecIgnoresValOfNonSymbols := by
  intro s rev' hinv hval
  obtain ⟨t, h⟩ := exec_next .dec s
  exact ⟨t, h, execDec_of_agreeing_rev (fun _ _ => hinv _) (fun _ _ => hval _) h⟩

/-! ## The lazily built table (R72) -/

theorem lazyEnsure_of_built {alpha : AlphaTable} {l : LazyTable} (h : l.built = true) : lazyEnsure alpha l = l :=
  if_pos h

theorem lazyEnsure_of_not_built {alpha : AlphaTable} {l : LazyTable} (h : l.built = false) :
    lazyEnsure alpha l = { built := true, table := lazyFill alpha 65 (Nat.le_refl 65) l.table } := by
  rw [lazyEnsure, h]
  rfl

theorem lazyEnsure_built (alpha : AlphaTable) (l : LazyTable) : (lazyEnsure alpha l).built = true := by
  cases h : l.built with
  | true => rw [lazyEnsure_of_built h, h]
  | false => rw [lazyEnsure_of_not_built h]

/-- The table that `ensure()` builds gives a data symbol its value, whatever it held before (R66, R72). -/
theorem revAt_lazyEnsure_symbol {alpha : AlphaTable} (hd : alphabetDistinct alpha = true) {l : LazyTable}
    (hl : l.built = false) (i : Sym) : revAt (lazyEnsure alpha l).table (alphaAt alpha i) = i.setWidth 7 := by
  have hi : i.toNat < 65 := Nat.lt_trans i.isLt (by decide)
  rw [lazyEnsure_of_not_built hl]
  calc revAt (lazyFill alpha 65 (Nat.le_refl 65) l.table) (alphaAt alpha i)
      = BitVec.ofNat 7 i.toNat := revAt_lazyFill hd 65 (Nat.le_refl 65) l.table ⟨i.toNat, hi⟩ hi
    _ = i.setWidth 7 := BitVec.ofNat_toNat 7 i

/-- Where the ROM has `INV = 0`, the table that `ensure()` builds holds what the ROM holds. -/
theorem revAt_lazyEnsure_eq_rom {alpha : AlphaTable} {rev : RevTable} (h : TablesAgree alpha rev) {l : LazyTable}
    (hl : l.built = false) {c : Byte} (hc : revInv (revAt rev c) = false) :
    revAt (lazyEnsure alpha l).table c = revAt rev c := by
  have hcode := h.symbol_of_inv hc
  obtain ⟨hd, hentry, -⟩ := h
  rw [← hcode, revAt_lazyEnsure_symbol hd hl, hentry]

/-- Settles O19: a clean input has only data symbols below EFF, and on those the two tables agree. -/
theorem lazyTableDecodesLikeTheRom : Obligations.LazyTableDecodesLikeTheRom := by
  refine ⟨fun alpha l => lazyEnsure_of_built (lazyEnsure_built alpha l), fun s l hroms hclean hl => ?_⟩
  obtain ⟨-, -, hsymbols⟩ := hclean
  obtain ⟨t, h⟩ := exec_next .dec s
  have heq : ∀ i, i < s.effLen → revAt (lazyEnsure s.alpha l).table (s.ibufAt i) = revAt s.rev (s.ibufAt i) :=
    fun i hi => revAt_lazyEnsure_eq_rom hroms.agree hl (by simpa [State.symbolAt] using hsymbols i hi)
  exact ⟨t, h, execDec_of_agreeing_rev (fun i hi => congrArg revInv (heq i hi)) (fun i hi _ => heq i hi) h⟩

/-! ## NOP and TBL (R70, R71) -/

/-- Settles O21: each command's meaning answers the state it was given. -/
theorem nopAndTblChangeNothing : Obligations.NopAndTblChangeNothing := fun _ => ⟨rfl, rfl⟩

end Sys2Proof.Proofs
end

section
/-! PROOFS. DEC (spec/41_decode.md R75 to R89): where the trim stops, the closed form of a DEC that completes, and the state
that it leaves. -/

namespace Sys2Proof.Proofs

open Sys2Proof.Machine

/-! ## The trim (R77) -/

/-- Settles O27: the trim stops at a number with the three properties, and `trim_unique` says that no other has them. -/
theorem trimStopsAtTheLastNonPad : Obligations.TrimStopsAtTheLastNonPad := by
  intro s m
  constructor
  · rintro rfl
    refine ⟨effLen_le s, trim_pads s.ibufAt _ _, ?_⟩
    rcases Nat.eq_zero_or_pos s.effLen with hzero | hpos
    · exact .inl hzero
    · exact .inr (trim_stops _ _ _ hpos)
  · rintro ⟨hle, hpads, hstop⟩
    exact trim_unique hle hpads fun hpos => hstop.resolve_left (Nat.ne_of_gt hpos)

/-! ## The closed form (R89) -/

/-- The two forms of R89 agree: byte `j` of the group words is bits `8j` to `8j + 7` of the string of symbol values. -/
theorem groupSlice_eq_decodedByte (val : Nat → Sym) (j : Nat) : groupSlice val j = decodedByte val j := by
  apply BitVec.eq_of_getMsbD_eq
  intro k hk
  rw [groupSlice_getMsbD val j k hk, decodedByte_getMsbD val j k hk]

theorem decDone_olen_toNat (s : State) (r : DecRun) : (s.decDone s.effLen r).olen.toNat = decodedLen s.effLen := by
  rw [State.decDone_olen, decodedLen_toNat]

/-- Settles O28: `decDone_obufAt` gives each byte below OLEN as a slice of its group word, and the two forms agree. -/
theorem decMeetsItsClosedForm : Obligations.DecMeetsItsClosedForm := by
  intro s hclean
  refine ⟨_, execDec_clean hclean, ?_, fun j hj => ?_⟩
  · rw [decDone_olen_toNat, decodedLen, Nat.mul_comm]
  · rw [decDone_olen_toNat] at hj
    rw [decDone_obufAt, if_pos hj, ← groupSlice_eq_decodedByte]
    exact ⟨rfl, rfl⟩

/-! ## The end state (R86) -/

/-- IIDX never passes ILEN: EFF rounded up to whole groups is at most ILEN, which is whole groups (R85, R87). -/
theorem four_mul_decTurns_le_ilen {s : State} (hwhole : s.ilen.toNat % 4 = 0) : 4 * decTurns s.effLen ≤ s.ilen.toNat := by
  have hle := effLen_le s
  unfold decTurns
  omega

/-- The IIDX that a completing DEC writes is the exact one (R8, R86). -/
theorem decDone_iidx_toNat {s : State} (hwhole : s.ilen.toNat % 4 = 0) :
    (s.decDone s.effLen (decRun s.ibufAt s.rev s.effLen)).iidx.toNat = 4 * decTurns s.effLen := by
  obtain ⟨hiidx, -, -, -⟩ := decRun_spec s.ibufAt s.rev s.effLen
  have hlt : 4 * decTurns s.effLen < 2 ^ 32 := lt_of_le_of_lt (four_mul_decTurns_le_ilen hwhole) s.ilen.isLt
  rw [State.decDone_iidx, hiidx, BitVec.toNat_ofNat, Nat.mod_eq_of_lt hlt]

theorem decDone_eff_toNat (s : State) (r : DecRun) : (s.decDone s.effLen r).eff.toNat = s.effLen := by
  rw [State.decDone_eff, BitVec.toNat_ofNat, Nat.mod_eq_of_lt (effLen_lt s)]

/-- A completing DEC has emitted all its bytes: OIDX has reached OLEN (R87). -/
theorem decDone_oidx_eq_olen (s : State) :
    (s.decDone s.effLen (decRun s.ibufAt s.rev s.effLen)).oidx =
      (s.decDone s.effLen (decRun s.ibufAt s.rev s.effLen)).olen := by
  obtain ⟨-, hoidx, -, -⟩ := decRun_spec s.ibufAt s.rev s.effLen
  rw [State.decDone_oidx, State.decDone_olen, hoidx]

/-- From OLEN on OBUF is unspecified after a completing DEC (R21, R86). -/
theorem decDone_obufAt_of_le {s : State} {j : Nat} (hj : decodedLen s.effLen ≤ j) :
    (s.decDone s.effLen (decRun s.ibufAt s.rev s.effLen)).obufAt j = Config.freeObuf (s.obufGen + 1) j := by
  rw [decDone_obufAt, if_neg (Nat.not_lt.2 hj)]

/-- Settles O29: what a completing DEC writes, register by register; everything else `decDone` keeps. -/
theorem decEndState : Obligations.DecEndState := by
  intro s hclean
  have hexec := execDec_clean hclean
  obtain ⟨-, hwhole, -⟩ := hclean
  have holen := decDone_olen_toNat s (decRun s.ibufAt s.rev s.effLen)
  refine ⟨_, hexec, holen, decDone_eff_toNat s _, decDone_iidx_toNat hwhole, decDone_oidx_eq_olen s, rfl,
    fun j hj => ?_, rfl, rfl, rfl, rfl, fun _ => rfl, rfl, rfl, rfl, rfl, rfl, rfl⟩
  rw [holen] at hj
  exact decDone_obufAt_of_le hj

end Sys2Proof.Proofs
end

section
/-! PROOFS. ENC (spec/42_encode.md R100 to R113): the window after any number of turns, the UNPACK core over a whole group,
the closed form of an ENC that completes, and the state that it leaves. -/

namespace Sys2Proof.Proofs

open Sys2Proof.Machine

/-! ## The outer loop (R109) -/

/-- A loop given `k` turns has done that many, or all that the input has (R102, R159). -/
theorem encLoop_start_after (rd : Nat → Byte) (alpha : AlphaTable) (n k : Nat) :
    EncAfter rd alpha n (min k (encTurns n)) (encLoop rd alpha n k encStart) := by
  simpa using encLoop_after k (encAfter_start rd alpha n) (Nat.zero_le _)

section Turns

variable {rd : Nat → Byte} {alpha : AlphaTable} {n k : Nat} {r : EncRun}

/-- Within the loop's turns the count is what R109 (a) lists; it is negative only where the bytes ran out before a whole
3-byte group. -/
theorem encAfter_nbits (h : EncAfter rd alpha n k r) (hk : k ≤ encTurns n) :
    (r.nbits.toInt = -4 ∨ r.nbits.toInt = -2 ∨ r.nbits.toInt = 0 ∨ r.nbits.toInt = 2 ∨ r.nbits.toInt = 4 ∨
      r.nbits.toInt = 6) ∧ (r.nbits.toInt < 0 → r.iidx = n ∧ n % 3 ≠ 0) := by
  obtain ⟨-, hiidx, hnbits, -, -⟩ := h
  unfold bytesTaken at hiidx
  unfold encTurns at hk
  omega

/-- Below the buffered bits the window is zero (R109). -/
theorem encAfter_acc_below (h : EncAfter rd alpha n k r) {p : Nat} (hp : r.nbits.toInt ≤ (p : Int)) :
    r.acc.getMsbD p = false := by
  obtain ⟨-, -, hnbits, hacc, -⟩ := h
  rcases Nat.lt_or_ge p 32 with hlt | hge
  · simp [hacc p hlt, show ¬ 6 * k + p < 8 * r.iidx by omega]
  · exact BitVec.getMsbD_of_ge _ _ hge

/-- The buffered bits are the next unsent bits of the input (R109). -/
theorem encAfter_acc_buffered (h : EncAfter rd alpha n k r) {p : Nat} (hp : (p : Int) < r.nbits.toInt) :
    r.acc.getMsbD p = inputBit rd n (6 * r.oidx + p) := by
  obtain ⟨hoidx, -, hnbits, hacc, -⟩ := h
  have hwidth := BitVec.toInt_lt (x := r.nbits)
  simp [hacc p (by omega), hoidx, show 6 * k + p < 8 * r.iidx by omega]

/-- A fill with input left takes exactly one byte, from a count of 0, 2 or 4 (R103, R109). -/
theorem encAfter_fill (h : EncAfter rd alpha n k r) (hfew : r.nbits.toInt < 6) (hleft : r.iidx < n) :
    (r.nbits.toInt = 0 ∨ r.nbits.toInt = 2 ∨ r.nbits.toInt = 4) ∧
    (encFill rd n encFillTurns r).nbits.toInt = r.nbits.toInt + 8 ∧ (encFill rd n encFillTurns r).iidx = r.iidx + 1 := by
  obtain ⟨-, -, hiidx', hnbits', -⟩ := encFill_after h
  obtain ⟨-, hiidx, hnbits, -, -⟩ := h
  have htaken : bytesTaken n (k + 1) = r.iidx + 1 := by
    unfold bytesTaken at hiidx ⊢
    omega
  rw [hiidx', hnbits', htaken]
  refine ⟨?_, by omega, rfl⟩
  unfold bytesTaken at hiidx
  omega

end Turns

/-- Settles O39: the loop's invariant `EncAfter` says the window, the count and the fill of every turn. -/
theorem windowLoopInvariants : Obligations.WindowLoopInvariants := by
  rintro rd alpha n k r rfl
  have h := encLoop_start_after rd alpha n k
  obtain ⟨hcount, hneg⟩ := encAfter_nbits h (Nat.min_le_right _ _)
  exact ⟨hcount, fun _ => encAfter_acc_below h, hneg, fun _ => encAfter_acc_buffered h, encAfter_fill h⟩

/-! ## The values of a whole group (R110, R111) -/

/-- A value of the string of input bits is known by its six bits (R110). -/
theorem encodedSym_eq_of_bits {rd : Nat → Byte} {n j : Nat} {v : Sym}
    (h : ∀ p, p < 6 → v.getMsbD p = inputBit rd n (6 * j + p)) : encodedSym rd n j = v :=
  BitVec.eq_of_getMsbD_eq fun p hp => (encodedSym_getMsbD rd n j p hp).trans (h p hp).symm

/-- The four values at `4g` are those that the UNPACK core makes of the three bytes at `3g`. -/
theorem encodedSym_group {n g : Nat} (rd : Nat → Byte) (h : 3 * g + 2 < n) :
    encodedSym rd n (4 * g) = groupSym0 (rd (3 * g)) ∧
    encodedSym rd n (4 * g + 1) = groupSym1 (rd (3 * g)) (rd (3 * g + 1)) ∧
    encodedSym rd n (4 * g + 2) = groupSym2 (rd (3 * g + 1)) (rd (3 * g + 2)) ∧
    encodedSym rd n (4 * g + 3) = groupSym3 (rd (3 * g + 2)) := by
  have hbit : ∀ i q k, i < n → q < 8 → k = 8 * i + q → (rd i).getMsbD q = inputBit rd n k :=
    fun i q k hi hq hk => hk ▸ (inputBit_byte rd n i q hi hq).symm
  have hcore := groupSym_getMsbD (rd (3 * g)) (rd (3 * g + 1)) (rd (3 * g + 2))
  refine ⟨encodedSym_eq_of_bits fun p hp => ?_, encodedSym_eq_of_bits fun p hp => ?_,
    encodedSym_eq_of_bits fun p hp => ?_, encodedSym_eq_of_bits fun p hp => ?_⟩ <;>
    obtain ⟨h0, h1, h2, h3⟩ := hcore p hp
  · rw [h0]
    exact hbit _ _ _ (by omega) (by omega) (by omega)
  · rw [h1]
    split <;> exact hbit _ _ _ (by omega) (by omega) (by omega)
  · rw [h2]
    split <;> exact hbit _ _ _ (by omega) (by omega) (by omega)
  · rw [h3]
    exact hbit _ _ _ (by omega) (by omega) (by omega)

/-- R110's group form: the four characters at `4g` are those of the UNPACK core. -/
theorem encodedSym_group_chars {n g : Nat} (rd : Nat → Byte) (alpha : AlphaTable) (h : 3 * g + 2 < n) :
    [alphaAt alpha (encodedSym rd n (4 * g)), alphaAt alpha (encodedSym rd n (4 * g + 1)),
      alphaAt alpha (encodedSym rd n (4 * g + 2)), alphaAt alpha (encodedSym rd n (4 * g + 3))] =
      unpackCore alpha (rd (3 * g)) (rd (3 * g + 1)) (rd (3 * g + 2)) := by
  obtain ⟨h0, h1, h2, h3⟩ := encodedSym_group rd h
  rw [h0, h1, h2, h3, unpackCore]

/-! ## A run that starts in the middle (R111)

From an empty window the loop behaves as it does from its start, on the rest of the input, with what it writes moved up to
the run's own place in OBUF. -/

/-- `Rebased r q t`: `t` is what `r` has become where the start has become `q` on the input from `r.iidx` on. -/
def Rebased (r q t : EncRun) : Prop :=
  t.acc = q.acc ∧ t.nbits = q.nbits ∧ t.iidx = r.iidx + q.iidx ∧ t.oidx = r.oidx + q.oidx ∧
  ∀ j, Memory.lookup t.out j =
    if r.oidx ≤ j ∧ j < r.oidx + q.oidx then Memory.lookup q.out (j - r.oidx) else Memory.lookup r.out j

theorem rebased_start {r : EncRun} (hacc : r.acc = 0#32) (hnbits : r.nbits = 0#5) : Rebased r encStart r :=
  ⟨hacc, hnbits, rfl, rfl, fun j => by rw [if_neg (by simp only [encStart]; omega)]⟩

section Rebase

variable {r q t : EncRun}

theorem rebased_take (rd : Nat → Byte) (h : Rebased r q t) :
    Rebased r (encTake (fun i => rd (r.iidx + i)) q) (encTake rd t) := by
  obtain ⟨hacc, hnbits, hiidx, hoidx, hout⟩ := h
  refine ⟨?_, ?_, ?_, hoidx, hout⟩ <;> simp only [encTake, hacc, hnbits, hiidx]
  exact Nat.add_assoc ..

theorem rebased_fill (rd : Nat → Byte) (n turns : Nat) (h : Rebased r q t) :
    Rebased r (encFill (fun i => rd (r.iidx + i)) (n - r.iidx) turns q) (encFill rd n turns t) := by
  induction turns generalizing q t with
  | zero => exact h
  | succ turns ih =>
    have hcond : (needsFill t.nbits && decide (t.iidx < n)) =
        (needsFill q.nbits && decide (q.iidx < n - r.iidx)) := by
      obtain ⟨-, hnbits, hiidx, -, -⟩ := h
      rw [hnbits, hiidx, decide_eq_decide.2 (by omega : r.iidx + q.iidx < n ↔ q.iidx < n - r.iidx)]
    simp only [encFill, hcond]
    split
    · exact ih (rebased_take rd h)
    · exact h

theorem rebased_send (alpha : AlphaTable) (h : Rebased r q t) : Rebased r (encSend alpha q) (encSend alpha t) := by
  obtain ⟨hacc, hnbits, hiidx, hoidx, hout⟩ := h
  refine ⟨by simp only [encSend, hacc], by simp only [encSend, hnbits], hiidx, ?_, fun j => ?_⟩
  · simp only [encSend, hoidx]
    exact Nat.add_assoc ..
  · simp only [encSend, Memory.lookup_write, hout, hoidx, hacc]
    by_cases hj : j = r.oidx + q.oidx
    · simp [hj]
    · have hne : r.oidx ≤ j → j - r.oidx ≠ q.oidx := by omega
      have hin : (r.oidx ≤ j ∧ j < r.oidx + (q.oidx + 1)) ↔ (r.oidx ≤ j ∧ j < r.oidx + q.oidx) := by omega
      simp only [if_neg hj, hin]
      split
      · rw [if_neg (hne (by omega))]
      · rfl

theorem rebased_turn (rd : Nat → Byte) (alpha : AlphaTable) (n : Nat) (h : Rebased r q t) :
    Rebased r (encTurn (fun i => rd (r.iidx + i)) alpha (n - r.iidx) q) (encTurn rd alpha n t) :=
  rebased_send alpha (rebased_fill rd n encFillTurns h)

end Rebase

/-- Four turns from the start over three bytes or more: the window is empty, and the four characters stand in OBUF. -/
theorem encAfter_four {rd : Nat → Byte} {alpha : AlphaTable} {n : Nat} {q : EncRun} (hn : 3 ≤ n)
    (h : EncAfter rd alpha n 4 q) :
    q.acc = 0#32 ∧ q.nbits = 0#5 ∧ q.iidx = 3 ∧ q.oidx = 4 ∧
    [Memory.lookup q.out 0, Memory.lookup q.out 1, Memory.lookup q.out 2, Memory.lookup q.out 3] =
      (unpackCore alpha (rd 0) (rd 1) (rd 2)).map some := by
  have hiidx : q.iidx = 3 := by
    obtain ⟨-, hiidx, -, -, -⟩ := h
    unfold bytesTaken at hiidx
    omega
  have hcount : q.nbits.toInt = 0 := by
    obtain ⟨-, -, hnbits, -, -⟩ := h
    omega
  refine ⟨BitVec.eq_of_getMsbD_eq fun p _ => ?_, BitVec.eq_of_toInt_eq (by simpa using hcount), hiidx, h.1, ?_⟩
  · rw [encAfter_acc_below h (by omega), BitVec.getMsbD_zero]
  · obtain ⟨-, -, -, -, -, hlookup⟩ := h
    rw [← encodedSym_group_chars (g := 0) rd alpha hn]
    simp [hlookup]

/-- Settles O43: the run is the one from the start, rebased; `encAfter_four` says where that is after four turns. -/
theorem unpackCoreSendsTheGroup : Obligations.UnpackCoreSendsTheGroup := by
  rintro rd alpha n r t hacc hnbits hroom rfl
  have hn : 3 ≤ n - r.iidx := by omega
  have hturns : 4 ≤ encTurns (n - r.iidx) := by
    unfold encTurns
    omega
  have hstart := encAfter_start (fun i => rd (r.iidx + i)) alpha (n - r.iidx)
  have hfour := encTurn_after (encTurn_after (encTurn_after (encTurn_after hstart (by omega)) (by omega)) (by omega))
    (by omega)
  have hrebased := rebased_turn rd alpha n (rebased_turn rd alpha n (rebased_turn rd alpha n (rebased_turn rd alpha n
    (rebased_start hacc hnbits))))
  obtain ⟨qacc, qnbits, qiidx, qoidx, qout⟩ := encAfter_four hn hfour
  obtain ⟨tacc, tnbits, tiidx, toidx, tout⟩ := hrebased
  rw [qoidx] at toidx tout
  refine ⟨tacc.trans qacc, tnbits.trans qnbits, by rw [tiidx, qiidx], toidx, ?_, fun j hj => ?_⟩
  · simpa [tout] using qout
  · rw [tout, if_neg (by omega)]

/-! ## The closed form (R110, R113) -/

/-- Data symbols and pads together are a whole number of groups (R110). -/
theorem encTurns_add_padsFor (n : Nat) : encTurns n + padsFor n = 4 * ((n + 2) / 3) := by
  unfold encTurns padsFor
  split_ifs <;> omega

/-- Below OLEN the host reads the closed form's characters. -/
theorem encDone_obufAt_of_lt {s : State} {j : Nat} (hj : j < 4 * ((s.ilen.toNat + 2) / 3)) :
    (s.encDone (encRun s.ibufAt s.alpha s.ilen.toNat)).obufAt j = encodedChar s.ibufAt s.alpha s.ilen.toNat j := by
  rw [encDone_obufAt, if_pos hj]

theorem encodedChar_of_lt {n j : Nat} (rd : Nat → Byte) (alpha : AlphaTable) (hj : j < encTurns n) :
    encodedChar rd alpha n j = alphaAt alpha (encodedSym rd n j) := if_pos hj

theorem encodedChar_of_le {n j : Nat} (rd : Nat → Byte) (alpha : AlphaTable) (hj : encTurns n ≤ j) :
    encodedChar rd alpha n j = padOf alpha := if_neg (Nat.not_lt.2 hj)

/-- With distinct codes the pads are exactly the characters from `encTurns` on (R113, R125). -/
theorem encodedChar_eq_padOf_iff {alpha : AlphaTable} (hd : alphabetDistinct alpha = true) (rd : Nat → Byte) (n j : Nat) :
    encodedChar rd alpha n j = padOf alpha ↔ encTurns n ≤ j := by
  refine ⟨fun hpad => Nat.not_lt.1 fun hj => ?_, encodedChar_of_le rd alpha⟩
  rw [encodedChar_of_lt rd alpha hj] at hpad
  exact alphaAt_ne_pad hd _ hpad

/-- Settles O33: OBUF below OLEN is `encodedChar`, read off for the symbols, the pads and each whole group. -/
theorem encMeetsItsClosedForm : Obligations.EncMeetsItsClosedForm := by
  intro s hfit
  have holen := encDone_olen hfit
  have hlen := encTurns_add_padsFor s.ilen.toNat
  have hsym : ∀ j, j < encTurns s.ilen.toNat → (s.encDone (encRun s.ibufAt s.alpha s.ilen.toNat)).obufAt j =
      alphaAt s.alpha (encodedSym s.ibufAt s.ilen.toNat j) := fun j hj => by
    rw [encDone_obufAt_of_lt (by omega), encodedChar_of_lt _ _ hj]
  refine ⟨_, execEnc_fits hfit, holen, hsym, fun j hle hj => ?_, hlen.trans holen.symm, fun g hg => ?_⟩
  · rw [holen] at hj
    rw [encDone_obufAt_of_lt hj, encodedChar_of_le _ _ hle]
  · have hgroup : 4 * g + 3 < encTurns s.ilen.toNat := by
      unfold encTurns
      omega
    rw [hsym _ (by omega), hsym _ (by omega), hsym _ (by omega), hsym _ hgroup, encodedSym_group_chars _ _ hg]

/-- Settles O38: the select is a 6-bit value, and a pad stands only where no symbol comes after it. -/
theorem noDataSymbolAfterPad : Obligations.NoDataSymbolAfterPad := by
  refine ⟨fun acc => (windowSelect acc).isLt, fun s hd hfit => ⟨_, execEnc_fits hfit, fun j k hjk hk hpad => ?_⟩⟩
  rw [encDone_olen hfit] at hk
  rw [encDone_obufAt_of_lt (hjk.trans hk), encodedChar_eq_padOf_iff hd] at hpad
  rw [encDone_obufAt_of_lt hk]
  exact encodedChar_of_le _ _ (hpad.trans (Nat.le_of_lt hjk))

/-! ## The end state (R108, R112) -/

/-- NBITS at the end: the input's bits less those of the characters sent (R108). -/
theorem encDone_nbits_toInt (s : State) :
    (s.encDone (encRun s.ibufAt s.alpha s.ilen.toNat)).nbits.toInt =
      if s.ilen.toNat % 3 = 0 then 0 else if s.ilen.toNat % 3 = 2 then -2 else -4 := by
  obtain ⟨-, -, -, hnbits, -⟩ := encRun_spec s.ibufAt s.alpha s.ilen.toNat
  rw [State.encDone_nbits, hnbits, encTurns]
  split_ifs <;> omega

/-- A completing ENC has taken its whole input in (R108). -/
theorem encDone_iidx_eq_ilen (s : State) : (s.encDone (encRun s.ibufAt s.alpha s.ilen.toNat)).iidx = s.ilen := by
  obtain ⟨hiidx, -, -, -, -⟩ := encRun_spec s.ibufAt s.alpha s.ilen.toNat
  rw [State.encDone_iidx, hiidx, BitVec.ofNat_toNat, BitVec.setWidth_eq]

/-- A completing ENC leaves its window empty (R108). -/
theorem encDone_acc_eq_zero (s : State) : (s.encDone (encRun s.ibufAt s.alpha s.ilen.toNat)).acc = 0#32 := by
  obtain ⟨-, -, hacc, -, -⟩ := encRun_spec s.ibufAt s.alpha s.ilen.toNat
  rw [State.encDone_acc, hacc]

/-- From OLEN on OBUF is unspecified after a completing ENC (R21, R108). -/
theorem encDone_obufAt_of_le {s : State} {j : Nat} (hj : 4 * ((s.ilen.toNat + 2) / 3) ≤ j) :
    (s.encDone (encRun s.ibufAt s.alpha s.ilen.toNat)).obufAt j = Config.freeObuf (s.obufGen + 1) j := by
  rw [encDone_obufAt, if_neg (Nat.not_lt.2 hj)]

/-- Settles O34: what a completing ENC writes, register by register; everything else `encDone` keeps. -/
theorem encEndState : Obligations.EncEndState := by
  intro s hfit
  have holen := encDone_olen hfit
  refine ⟨_, execEnc_fits hfit, encDone_iidx_eq_ilen s, rfl, holen, encDone_acc_eq_zero s, encDone_nbits_toInt s, rfl, fun j hj => ?_,
    rfl, rfl, rfl, fun _ => rfl, rfl, rfl, rfl, rfl, rfl, rfl⟩
  rw [holen] at hj
  exact encDone_obufAt_of_le hj

/-- Settles O35: a loaded buffer that fits is an input that fits, and R3 sizes OBUF for the largest one. -/
theorem encNeverFaultsOnItsData : Obligations.EncNeverFaultsOnItsData := by
  intro s b hb
  have hilen := loadInput_ilen s b hb
  have hfit : (s.loadInput b).ilen.toNat ≤ Config.capIn := hilen.le.trans hb
  have holen := encDone_olen hfit
  refine ⟨_, execEnc_fits hfit, loadInput_status s b, holen.trans (by rw [hilen]), ?_⟩
  rw [holen]
  exact encodedLen_le hfit

end Sys2Proof.Proofs
end

section
/-! PROOFS. What a result depends on (spec/43_codec_laws.md R126, R128): two runs of DEC or of ENC that agree on the length,
on the input below it and on the tables, as far as DEC sees them, give the same result. -/

namespace Sys2Proof.Proofs

open Sys2Proof.Machine

/-- The result of `t`, reached from `s`, is that of `t'`, reached from `s'`: OLEN, OBUF below it, and which flag is set
(R126). -/
def SameResult (s s' t t' : State) : Prop :=
  t'.olen = t.olen ∧ (∀ j, j < t.olen.toNat → t'.obufAt j = t.obufAt j) ∧
  ∃ m ∈ [0x00#8, 0x04#8, 0x08#8, 0x10#8], t.status = s.status ||| m ∧ t'.status = s'.status ||| m

/-- The same fault in both runs is the same result: it leaves no output, and its mask is the flag that is set (R135). -/
theorem sameResult_raise (s s' : State) {c : ErrCause} (hc : c = .cap ∨ c = .len ∨ c = .char) :
    SameResult s s' (s.raise c) (s'.raise c) := by
  refine ⟨rfl, fun j hj => absurd hj (Nat.not_lt_zero j), errMask c, ?_, rfl, rfl⟩
  rcases hc with rfl | rfl | rfl <;> decide

/-- Two runs that complete have the same result if they have the same output. -/
theorem sameResult_of_completed {s s' t t' : State} (hstatus : t.status = s.status) (hstatus' : t'.status = s'.status)
    (holen : t'.olen = t.olen) (hobuf : ∀ j, j < t.olen.toNat → t'.obufAt j = t.obufAt j) : SameResult s s' t t' :=
  ⟨holen, hobuf, 0x00#8, by decide, by rw [hstatus, BitVec.or_zero], by rw [hstatus', BitVec.or_zero]⟩

/-! ## The two ways a length faults (R133, R134) -/

theorem execDec_tooLong {s : State} (hlong : Config.capIn < s.ilen.toNat) : exec .dec s = .next (s.raise .cap) :=
  congrArg Host.Outcome.next (if_pos (decide_eq_true hlong))

theorem execDec_partialGroup {s : State} (hfit : s.ilen.toNat ≤ Config.capIn) (hpart : s.ilen.toNat % 4 ≠ 0) :
    exec .dec s = .next (s.raise .len) := by
  show execDec s = _
  rcases decWith_cases Config.capIn s with ⟨hlong, -⟩ | ⟨-, -, e⟩ | ⟨-, hwhole, -⟩ | ⟨-, hwhole, -⟩
  · exact absurd hlong (Nat.not_lt.2 hfit)
  · rw [execDec, e]
  · exact absurd hwhole hpart
  · exact absurd hwhole hpart

theorem execEnc_tooLong {s : State} (hlong : Config.capIn < s.ilen.toNat) : exec .enc s = .next (s.raise .cap) :=
  congrArg Host.Outcome.next (if_pos (decide_eq_true hlong))

/-! ## Two runs that agree on their input -/

section Agreement

variable {s s' : State} (hilen : s'.ilen = s.ilen) (halpha : s'.alpha = s.alpha)
  (hread : ∀ i, i < s.ilen.toNat → s'.ibufAt i = s.ibufAt i)
include hilen halpha hread

/-- The trim depends on the length, the characters below it and the pad's code only (R77, R78). -/
theorem effLen_congr : s'.effLen = s.effLen := by
  rw [State.effLen, hilen, halpha]
  exact trim_congr _ _ hread

/-- DEC's result depends on the length, the characters below it, which of them are data symbols, and the values of those
that are. -/
theorem execDec_sameResult (hsym : ∀ i, i < s.ilen.toNat → s'.symbolAt i = s.symbolAt i)
    (hval : ∀ i, i < s.ilen.toNat → s.symbolAt i = true → s'.inputVal i = s.inputVal i) :
    ∃ t t', exec .dec s = .next t ∧ exec .dec s' = .next t' ∧ SameResult s s' t t' := by
  have heff := effLen_congr hilen halpha hread
  have hbelow : ∀ {i}, i < s.effLen → i < s.ilen.toNat := fun hi => lt_of_lt_of_le hi (effLen_le s)
  rcases decWith_cases Config.capIn s with ⟨hlong, -⟩ | ⟨hfit, hpart, -⟩ | ⟨hfit, hwhole, ⟨i, hi, hbad⟩, -⟩ |
    ⟨hfit, hwhole, hgood, -⟩
  · exact ⟨_, _, execDec_tooLong hlong, execDec_tooLong (hilen ▸ hlong), sameResult_raise s s' (.inl rfl)⟩
  · exact ⟨_, _, execDec_partialGroup hfit hpart, execDec_partialGroup (hilen ▸ hfit) (hilen ▸ hpart),
      sameResult_raise s s' (.inr (.inl rfl))⟩
  · have hbad' : s'.symbolAt i = false := (hsym i (hbelow hi)).trans hbad
    exact ⟨_, _, execDec_invalid hfit hwhole hi hbad, execDec_invalid (hilen ▸ hfit) (hilen ▸ hwhole) (heff ▸ hi) hbad',
      sameResult_raise s s' (.inr (.inr rfl))⟩
  · have hgood' : ∀ i, i < s'.effLen → s'.symbolAt i = true := fun i hi => by
      rw [heff] at hi
      exact (hsym i (hbelow hi)).trans (hgood i hi)
    have holen : BitVec.ofNat 32 (decodedLen s'.effLen) = BitVec.ofNat 32 (decodedLen s.effLen) := by rw [heff]
    refine ⟨_, _, execDec_clean ⟨hfit, hwhole, hgood⟩, execDec_clean ⟨hilen ▸ hfit, hilen ▸ hwhole, hgood'⟩,
      sameResult_of_completed rfl rfl holen fun j hj => ?_⟩
    rw [decDone_olen_toNat] at hj
    rw [decDone_obufAt, decDone_obufAt, heff, if_pos hj, if_pos hj]
    exact groupSlice_congr hj fun i hi => hval i (hbelow hi) (hgood i hi)

/-- ENC's result depends on the length, the bytes below it and the alphabet (R126). -/
theorem execEnc_sameResult : ∃ t t', exec .enc s = .next t ∧ exec .enc s' = .next t' ∧ SameResult s s' t t' := by
  rcases Nat.lt_or_ge Config.capIn s.ilen.toNat with hlong | hfit
  · exact ⟨_, _, execEnc_tooLong hlong, execEnc_tooLong (hilen ▸ hlong), sameResult_raise s s' (.inl rfl)⟩
  · have hfit' : s'.ilen.toNat ≤ Config.capIn := hilen ▸ hfit
    refine ⟨_, _, execEnc_fits hfit, execEnc_fits hfit',
      sameResult_of_completed rfl rfl (BitVec.eq_of_toNat_eq ?_) fun j hj => ?_⟩
    · rw [encDone_olen hfit, encDone_olen hfit', hilen]
    · rw [encDone_olen hfit] at hj
      rw [encDone_obufAt_of_lt hj, encDone_obufAt_of_lt (hilen ▸ hj), encodedChar, encodedChar, hilen, halpha,
        encodedSym_congr hread]

end Agreement

/-- Settles O47: with the same tables the characters below ILEN have the same entries. -/
theorem resultDependsOnInputOnly : Obligations.ResultDependsOnInputOnly := by
  rintro s s' i (rfl | rfl) hilen halpha hrev hread
  · refine execDec_sameResult hilen halpha hread (fun i hi => ?_) (fun i hi _ => ?_)
    · rw [State.symbolAt, State.symbolAt, hrev, hread i hi]
    · rw [State.inputVal, State.inputVal, hrev, hread i hi]
  · exact execEnc_sameResult hilen halpha hread

/-- Settles O31: the pad's code is marked in both tables, and every other code has the same entry in both, so both runs
see the same data symbols with the same values. -/
theorem decIgnoresPadEntryAndBeyond : Obligations.DecIgnoresPadEntryAndBeyond := by
  intro s s' hilen halpha hread hrev hpad hpad'
  have hinv : ∀ c, revInv (revAt s'.rev c) = revInv (revAt s.rev c) := fun c => by
    by_cases hc : c = padOf s.alpha
    · rw [hc, hpad, hpad']
    · rw [hrev c hc]
  refine execDec_sameResult hilen halpha hread (fun i hi => ?_) (fun i hi hsym => ?_)
  · rw [State.symbolAt, State.symbolAt, hread i hi, hinv]
  · have hc : s.ibufAt i ≠ padOf s.alpha := fun hc => by simp [State.symbolAt, hc, hpad] at hsym
    rw [State.inputVal, State.inputVal, hread i hi, hrev _ hc]

end Sys2Proof.Proofs
end

section
/-! PROOFS. The codec's laws (spec/43_codec_laws.md R120 to R125, R127; spec/41_decode.md R88): the lengths and the pads,
the two round trips, and the bits that DEC drops. A completing command on a loaded input is said once for ENC and once for
DEC, with the result as a list; the round trips are then equations between lists. -/

namespace Sys2Proof.Proofs

open Sys2Proof.Machine

/-! ## Lengths and pads (R123 to R125) -/

/-- Three bytes for each whole group, and one byte less than there are symbols for a last one that is not whole (R123). -/
theorem decodedLen_eq_groups (n : Nat) : decodedLen n = 3 * (n / 4) + (n % 4 - 1) := by
  unfold decodedLen
  omega

/-- Settles O30: the trim takes exactly the trailing pads off, and what is left decodes to three bytes a group. -/
theorem decLengthLaw : Obligations.DecLengthLaw := by
  intro s p hclean hp hpads hstop
  have hexec := execDec_clean hclean
  obtain ⟨-, hwhole, -⟩ := hclean
  have heff : s.effLen = s.ilen.toNat - p := by
    refine (trimStopsAtTheLastNonPad s _).2 ⟨Nat.sub_le _ _, hpads, ?_⟩
    rcases hstop with rfl | hne
    · exact .inl (Nat.sub_self _)
    · exact .inr hne
  have hlen := decDone_eff_toNat s (decRun s.ibufAt s.rev s.effLen)
  have holen := decDone_olen_toNat s (decRun s.ibufAt s.rev s.effLen)
  refine ⟨_, hexec, hlen.trans heff, by rw [holen, hlen, decodedLen, Nat.mul_comm], ?_, ?_, ?_, ?_, ?_⟩ <;>
    intro hcase <;> rw [holen, decodedLen_eq_groups] <;> omega

/-- Settles O36: OLEN is a number of groups of four. -/
theorem encLengthLaw : Obligations.EncLengthLaw := by
  intro s hfit
  have holen := encDone_olen hfit
  exact ⟨_, execEnc_fits hfit, holen, by rw [holen, Nat.mul_mod_right]⟩

/-- Settles O37: the pads are the characters from `encTurns` on, and those are the last `padsFor ILEN`. -/
theorem encPaddingLaw : Obligations.EncPaddingLaw := by
  intro s hd hfit
  refine ⟨_, execEnc_fits hfit, fun j hj => ?_⟩
  rw [encDone_olen hfit] at hj
  rw [encDone_olen hfit, encDone_obufAt_of_lt hj, encodedChar_eq_padOf_iff hd, ← encTurns_add_padsFor,
    Nat.add_sub_cancel]

/-! ## Strings -/

theorem stringOf_length (alpha : AlphaTable) (data : List Sym) (pads : Nat) :
    (stringOf alpha data pads).length = data.length + pads := by
  simp [stringOf]

theorem stringOf_getElem_of_lt {alpha : AlphaTable} {data : List Sym} {pads i : Nat} (hi : i < data.length)
    (h : i < (stringOf alpha data pads).length) : (stringOf alpha data pads)[i] = alphaAt alpha data[i] := by
  simp [stringOf, hi]

theorem stringOf_getElem_of_le {alpha : AlphaTable} {data : List Sym} {pads i : Nat} (hi : data.length ≤ i)
    (h : i < (stringOf alpha data pads).length) : (stringOf alpha data pads)[i] = padOf alpha := by
  simp [stringOf, hi]

/-! ## ENC of a loaded buffer -/

/-- The symbol values of a byte buffer (R110). -/
def encodedSyms (b : List Byte) : List Sym := (List.range (encTurns b.length)).map (encodedSym (b.getD · 0#8) b.length)

theorem encodedSyms_length (b : List Byte) : (encodedSyms b).length = encTurns b.length := by simp [encodedSyms]

/-- What ENC gives for a byte buffer is a string of its symbol values and pads; it sets no flag. -/
theorem execEnc_loadInput (s : State) {b : List Byte} (hfit : b.length ≤ Config.capIn) :
    ∃ t, exec .enc (s.loadInput b) = .next t ∧ t.status = s.status ∧ t.alpha = s.alpha ∧ t.rev = s.rev ∧
      t.result = stringOf s.alpha (encodedSyms b) (padsFor b.length) := by
  have hilen := loadInput_ilen s b hfit
  have hfits : (s.loadInput b).ilen.toNat ≤ Config.capIn := hilen.le.trans hfit
  have holen := encDone_olen hfits
  have hsum := encTurns_add_padsFor b.length
  refine ⟨_, execEnc_fits hfits, loadInput_status s b, loadInput_alpha s b, loadInput_rev s b,
    List.ext_getElem ?_ fun j hj _ => ?_⟩
  · rw [result_length, holen, hilen, stringOf_length, encodedSyms_length, hsum]
  · rw [result_length, holen] at hj
    rw [result_getElem, encDone_obufAt_of_lt hj, hilen, loadInput_alpha]
    rcases Nat.lt_or_ge j (encTurns b.length) with hdata | hpad
    · rw [encodedChar_of_lt _ _ hdata, stringOf_getElem_of_lt (by rwa [encodedSyms_length]),
        encodedSym_congr (rd' := (b.getD · 0#8)) fun i hi => by rw [loadInput_ibufAt s b i hi]; simp [hi]]
      simp [encodedSyms]
    · rw [encodedChar_of_le _ _ hpad, stringOf_getElem_of_le (by rwa [encodedSyms_length])]

/-! ## DEC of a loaded string -/

/-- The bytes of a list of symbol values (R89). -/
def decodedBytes (data : List Sym) : List Byte :=
  (List.range (decodedLen data.length)).map (groupSlice (data.getD · 0#6))

theorem decodedBytes_length (data : List Sym) : (decodedBytes data).length = decodedLen data.length := by
  simp [decodedBytes]

section LoadedString

variable {s : State} {data : List Sym} {pads : Nat} (hagree : TablesAgree s.alpha s.rev)
  (hwf : WellFormedString data pads) (hfit : data.length + pads ≤ Config.capIn)

include hfit in
theorem loadString_ilen : (s.loadInput (stringOf s.alpha data pads)).ilen.toNat = data.length + pads := by
  rw [loadInput_ilen _ _ (by rwa [stringOf_length]), stringOf_length]

theorem loadString_ibufAt_data {i : Nat} (hi : i < data.length) :
    (s.loadInput (stringOf s.alpha data pads)).ibufAt i = alphaAt s.alpha data[i] := by
  rw [loadInput_ibufAt _ _ _ (by rw [stringOf_length]; omega), stringOf_getElem_of_lt hi]

theorem loadString_ibufAt_pad {i : Nat} (hi : data.length ≤ i) (hlt : i < data.length + pads) :
    (s.loadInput (stringOf s.alpha data pads)).ibufAt i = padOf s.alpha := by
  rw [loadInput_ibufAt _ _ _ (by rwa [stringOf_length]), stringOf_getElem_of_le hi]

include hagree

include hfit in
/-- The trim takes the pads off and stops at the last data symbol, which is no pad (R77). -/
theorem loadString_effLen : (s.loadInput (stringOf s.alpha data pads)).effLen = data.length := by
  have hilen := loadString_ilen (s := s) hfit
  obtain ⟨hd, -, -⟩ := hagree
  rw [State.effLen, loadInput_alpha, hilen]
  refine trim_unique (Nat.le_add_right _ _) (fun i => loadString_ibufAt_pad) fun hpos => ?_
  rw [loadString_ibufAt_data (Nat.sub_lt hpos Nat.one_pos)]
  exact alphaAt_ne_pad hd _

theorem loadString_symbolAt {i : Nat} (hi : i < data.length) :
    (s.loadInput (stringOf s.alpha data pads)).symbolAt i = true := by
  rw [State.symbolAt, loadInput_rev, loadString_ibufAt_data hi, hagree.inv_symbol, Bool.not_false]

theorem loadString_inputVal {i : Nat} (hi : i < data.length) :
    (s.loadInput (stringOf s.alpha data pads)).inputVal i = data[i] := by
  rw [State.inputVal, loadInput_rev, loadString_ibufAt_data hi, hagree.val_symbol]

include hwf hfit

/-- No check of DEC fails on a well-formed string (R133, R134, R136). -/
theorem loadString_decodesClean : (s.loadInput (stringOf s.alpha data pads)).DecodesClean := by
  obtain ⟨-, hwhole, -⟩ := hwf
  rw [State.DecodesClean, loadString_ilen hfit, loadString_effLen hagree hfit]
  exact ⟨hfit, hwhole, fun _ => loadString_symbolAt hagree⟩

/-- What DEC gives for a well-formed string is the bytes of its symbol values; it sets no flag. -/
theorem execDec_loadString :
    ∃ t, exec .dec (s.loadInput (stringOf s.alpha data pads)) = .next t ∧ t.status = s.status ∧ t.alpha = s.alpha ∧
      t.rev = s.rev ∧ t.result = decodedBytes data := by
  have heff := loadString_effLen hagree hfit
  refine ⟨_, execDec_clean (loadString_decodesClean hagree hwf hfit), loadInput_status s _, loadInput_alpha s _,
    loadInput_rev s _, List.ext_getElem ?_ fun j hj _ => ?_⟩
  · rw [result_length, decDone_olen_toNat, heff, decodedBytes_length]
  · rw [result_length, decDone_olen_toNat, heff] at hj
    rw [result_getElem, decDone_obufAt, heff, if_pos hj,
      groupSlice_congr (val' := (data.getD · 0#6)) hj fun i hi => by rw [loadString_inputVal hagree hi]; simp [hi]]
    simp [decodedBytes]

end LoadedString

/-! ## Bytes to symbol values and back (R120, R127) -/

/-- Six bits per symbol value, with at most four of filling, leave room for exactly the bytes that came in. -/
theorem decodedLen_encTurns (n : Nat) : decodedLen (encTurns n) = n := by
  unfold decodedLen encTurns
  omega

/-- The string of bits that DEC reads off the symbol values of a buffer is the buffer's own. -/
theorem symbolBit_encodedSyms {b : List Byte} {n : Nat} (hn : n < 6 * encTurns b.length) :
    symbolBit ((encodedSyms b).getD · 0#6) n = inputBit (b.getD · 0#8) b.length n := by
  have hlt : n / 6 < encTurns b.length := by omega
  have hval : (encodedSyms b).getD (n / 6) 0#6 = encodedSym (b.getD · 0#8) b.length (n / 6) := by
    simp [encodedSyms, hlt]
  rw [symbolBit, hval, encodedSym_getMsbD _ _ _ _ (Nat.mod_lt _ (by decide)), Nat.div_add_mod]

/-- Cutting a buffer's bits into symbol values and those into bytes gives the buffer back (R120). -/
theorem decodedBytes_encodedSyms (b : List Byte) : decodedBytes (encodedSyms b) = b := by
  refine List.ext_getElem ?_ fun j _ hj => BitVec.eq_of_getMsbD_eq fun k hk => ?_
  · rw [decodedBytes_length, encodedSyms_length, decodedLen_encTurns]
  · have hbits : 8 * j + k < 6 * encTurns b.length := by
      unfold encTurns
      omega
    simp only [decodedBytes, List.getElem_map, List.getElem_range]
    rw [groupSlice_getMsbD _ _ _ hk, symbolBit_encodedSyms hbits, inputBit_byte _ _ _ _ hj hk]
    simp [hj]

/-- The string of a byte buffer is well-formed (R124, R125). -/
theorem wellFormedString_encodedSyms (b : List Byte) : WellFormedString (encodedSyms b) (padsFor b.length) := by
  have hsum := encTurns_add_padsFor b.length
  rw [WellFormedString, encodedSyms_length]
  unfold padsFor at hsum ⊢
  split_ifs at hsum ⊢ <;> omega

/-- ENC of a buffer whose string fits, then DEC of that string: neither faults, and the buffer is back (R120, R127). -/
theorem execEnc_then_execDec {s : State} {b : List Byte} (hagree : TablesAgree s.alpha s.rev)
    (hfit : 4 * ((b.length + 2) / 3) ≤ Config.capIn) :
    ∃ t u, exec .enc (s.loadInput b) = .next t ∧ t.status = s.status ∧ t.olen.toNat % 4 = 0 ∧
      (t.loadInput t.result).DecodesClean ∧
      exec .dec (t.loadInput t.result) = .next u ∧ u.status = s.status ∧ u.result = b := by
  have hsum := encTurns_add_padsFor b.length
  have hwf := wellFormedString_encodedSyms b
  have hlen : (encodedSyms b).length + padsFor b.length = 4 * ((b.length + 2) / 3) := by rw [encodedSyms_length, hsum]
  obtain ⟨t, henc, htstatus, halpha, hrev, hres⟩ := execEnc_loadInput s (b := b) (by omega)
  rw [← halpha] at hres
  rw [← halpha, ← hrev] at hagree
  have holen : t.olen.toNat = 4 * ((b.length + 2) / 3) := by rw [← result_length, hres, stringOf_length, hlen]
  obtain ⟨u, hdec, hustatus, -, -, hbytes⟩ := execDec_loadString hagree hwf (hlen.le.trans hfit)
  have hclean := loadString_decodesClean hagree hwf (hlen.le.trans hfit)
  rw [← hres] at hdec hclean
  exact ⟨t, u, henc, htstatus, by rw [holen, Nat.mul_mod_right], hclean, hdec, hustatus.trans htstatus,
    hbytes.trans (decodedBytes_encodedSyms b)⟩

/-- Settles O44: of the call of ENC and that of DEC after it, the flags and the bytes. -/
theorem roundTripFromBytes : Obligations.RoundTripFromBytes := by
  intro s b hagree hfit
  obtain ⟨t, u, henc, htstatus, -, -, hdec, hustatus, hres⟩ := execEnc_then_execDec hagree hfit
  exact ⟨t, u, henc, htstatus, hdec, hustatus, hres⟩

/-- Settles O48: of the same two calls, the length and the checks that DEC makes. -/
theorem encOutputNeverFaultsDec : Obligations.EncOutputNeverFaultsDec := by
  intro s b hagree hfit
  obtain ⟨t, u, henc, htstatus, hwhole, hclean, hdec, hustatus, -⟩ := execEnc_then_execDec hagree hfit
  exact ⟨t, u, henc, hwhole, hclean, hdec, hustatus.trans htstatus.symm⟩

/-! ## Symbol values to bytes and back (R121, R122) -/

theorem encTurns_decodedLen {n : Nat} (h : n % 4 ≠ 1) : encTurns (decodedLen n) = n := by
  rw [decodedLen_eq_groups, encTurns]
  omega

/-- The pads of a well-formed string are those that ENC gives its bytes. -/
theorem padsFor_decodedLen {data : List Sym} {pads : Nat} (h : WellFormedString data pads) :
    padsFor (decodedLen data.length) = pads := by
  obtain ⟨hpads, hwhole, hlone⟩ := h
  rw [decodedLen_eq_groups, padsFor]
  split_ifs <;> omega

/-- The bits of a well-formed string that DEC keeps, those of the whole bytes, end within its last symbol value: two bits
less from its end for each pad (R122). -/
theorem keptBits_of_wellFormed {data : List Sym} {pads : Nat} (h : WellFormedString data pads) :
    8 * decodedLen data.length + 2 * pads = 6 * data.length := by
  obtain ⟨hpads, hwhole, hlone⟩ := h
  rw [decodedLen_eq_groups]
  omega

/-- The bits that DEC drops from a canonical string, those past the last whole byte, are 0 (R121). -/
theorem canonicalString_dropped {data : List Sym} {pads : Nat} (h : CanonicalString data pads) {j k : Nat}
    (hj : j < data.length) (hk : k < 6) (hdrop : 8 * decodedLen data.length ≤ 6 * j + k) :
    data[j].getMsbD k = false := by
  obtain ⟨hwf, hlast⟩ := h
  have hkept := keptBits_of_wellFormed hwf
  obtain ⟨hpads, -, -⟩ := hwf
  have hj' : j = data.length - 1 := by omega
  obtain ⟨htwo, hone⟩ := hlast data[j] (by simp [List.getLast?_eq_getElem?, hj'])
  have hcase : pads = 2 ∧ 5 - k < 4 ∨ pads = 1 ∧ 5 - k < 2 := by omega
  have hbit : data[j].getMsbD k = data[j].getLsbD (5 - k) := by simp [BitVec.getMsbD, hk]
  rw [hbit]
  rcases hcase with ⟨hp, hlow⟩ | ⟨hp, hlow⟩
  · simpa [hlow] using congrArg (·.getLsbD (5 - k)) (htwo hp)
  · simpa [hlow] using congrArg (·.getLsbD (5 - k)) (hone hp)

/-- The string of bits that ENC reads off the bytes of a list of symbol values is the list's own, up to the last whole
byte, and 0 from there on. -/
theorem inputBit_decodedBytes (data : List Sym) (n : Nat) :
    inputBit ((decodedBytes data).getD · 0#8) (decodedLen data.length) n =
      (decide (n < 8 * decodedLen data.length) && symbolBit (data.getD · 0#6) n) := by
  by_cases hn : n / 8 < decodedLen data.length
  · have hbyte : (decodedBytes data).getD (n / 8) 0#8 = groupSlice (data.getD · 0#6) (n / 8) := by
      simp [decodedBytes, hn]
    rw [inputBit, hbyte, groupSlice_getMsbD _ _ _ (Nat.mod_lt _ (by decide)), Nat.div_add_mod]
    simp [hn, show n < 8 * decodedLen data.length by omega]
  · simp [inputBit, hn, show ¬ n < 8 * decodedLen data.length by omega]

theorem symbolBit_getD {data : List Sym} {j k : Nat} (hj : j < data.length) (hk : k < 6) :
    symbolBit (data.getD · 0#6) (6 * j + k) = data[j].getMsbD k := by
  have hdiv : (6 * j + k) / 6 = j := by omega
  have hmod : (6 * j + k) % 6 = k := by omega
  simp [symbolBit, hdiv, hmod, hj]

/-- Cutting the bits of a canonical string's symbol values into bytes and those into symbol values gives them back
(R121). -/
theorem encodedSyms_decodedBytes {data : List Sym} {pads : Nat} (h : CanonicalString data pads) :
    encodedSyms (decodedBytes data) = data := by
  have ⟨⟨_, _, hlone⟩, _⟩ := h
  refine List.ext_getElem ?_ fun j _ hj => BitVec.eq_of_getMsbD_eq fun k hk => ?_
  · rw [encodedSyms_length, decodedBytes_length, encTurns_decodedLen hlone]
  · simp only [encodedSyms, List.getElem_map, List.getElem_range]
    rw [encodedSym_getMsbD _ _ _ _ hk, decodedBytes_length, inputBit_decodedBytes, symbolBit_getD hj hk]
    by_cases hkept : 6 * j + k < 8 * decodedLen data.length
    · simp [hkept]
    · simp [hkept, canonicalString_dropped h hj hk (Nat.not_lt.1 hkept)]

/-- Settles O45: the bytes' symbol values are the string's, and their pads too. -/
theorem roundTripFromCanonicalText : Obligations.RoundTripFromCanonicalText := by
  intro s data pads hagree hcan hfit
  have ⟨hwf, _⟩ := hcan
  obtain ⟨t, hdec, htstatus, halpha, -, hbytes⟩ := execDec_loadString hagree hwf hfit
  have hroom : t.result.length ≤ Config.capIn := by
    have := decodedLen_le_self data.length
    rw [hbytes, decodedBytes_length]
    omega
  obtain ⟨u, henc, hustatus, -, -, hstr⟩ := execEnc_loadInput t hroom
  refine ⟨t, u, hdec, htstatus, henc, hustatus.trans htstatus, ?_⟩
  rw [hstr, hbytes, decodedBytes_length, padsFor_decodedLen hwf, encodedSyms_decodedBytes hcan, halpha]

/-! ## The bits that DEC drops (R88, R122) -/

/-- The bytes of a list of symbol values depend on the bits of the whole bytes only. -/
theorem decodedBytes_congr {data data' : List Sym} (hlen : data'.length = data.length)
    (h : ∀ n, n < 8 * decodedLen data.length → symbolBit (data'.getD · 0#6) n = symbolBit (data.getD · 0#6) n) :
    decodedBytes data' = decodedBytes data := by
  rw [decodedBytes, decodedBytes, hlen]
  refine List.map_congr_left fun j hj => BitVec.eq_of_getMsbD_eq fun k hk => ?_
  have hj' := List.mem_range.1 hj
  rw [groupSlice_getMsbD _ _ _ hk, groupSlice_getMsbD _ _ _ hk, h _ (by omega)]

/-- Two symbol values with the same upper `m` bits agree in each of them. -/
theorem getMsbD_of_upper_eq {v w : Sym} {low m k : Nat} (h : v.extractLsb' low m = w.extractLsb' low m)
    (hsum : low + m = 6) (hk : k < m) : v.getMsbD k = w.getMsbD k := by
  have hbit := congrArg (·.getMsbD k) h
  simp only [BitVec.getMsbD, BitVec.getLsbD_extractLsb'] at hbit ⊢
  rw [show low + (m - 1 - k) = 6 - 1 - k by omega] at hbit
  simpa [hk, show m - 1 - k < m by omega, show k < 6 by omega] using hbit

/-- A well-formed string's bytes do not depend on the bits of its last symbol value that its pads drop. -/
theorem decodedBytes_dropped {data : List Sym} {v w : Sym} {pads : Nat} (hwf : WellFormedString (data ++ [v]) pads)
    (h : v.extractLsb' (2 * pads) (6 - 2 * pads) = w.extractLsb' (2 * pads) (6 - 2 * pads)) :
    decodedBytes (data ++ [w]) = decodedBytes (data ++ [v]) := by
  have hkept := keptBits_of_wellFormed hwf
  obtain ⟨hpads, -, -⟩ := hwf
  have hlen : (data ++ [w]).length = (data ++ [v]).length := by simp
  refine decodedBytes_congr hlen fun n hn => ?_
  simp only [List.length_append, List.length_singleton] at hkept hn
  rw [← Nat.div_add_mod n 6]
  have hk : n % 6 < 6 := Nat.mod_lt _ (by decide)
  rw [symbolBit_getD (by simp; omega) hk, symbolBit_getD (by simp; omega) hk]
  rcases Nat.lt_or_ge (n / 6) data.length with hin | hlast
  · rw [List.getElem_append_left hin, List.getElem_append_left hin]
  · rw [List.getElem_append_right hlast, List.getElem_append_right hlast]
    simp only [List.getElem_singleton]
    exact (getMsbD_of_upper_eq h (Nat.add_sub_cancel' (by omega)) (by omega)).symm

/-- R4 fixes the codes of the string `"TQ=="`. -/
theorem stringOf_pinned {alpha : AlphaTable} (h : alphabetPinned alpha = true) :
    stringOf alpha [19#6, 16#6] 2 = [0x54#8, 0x51#8, 0x3D#8, 0x3D#8] := by
  simp only [alphabetPinned, Bool.and_eq_true, beq_iff_eq] at h
  obtain ⟨⟨⟨⟨⟨⟨-, -⟩, hQ⟩, hT⟩, -⟩, -⟩, hpad⟩ := h
  simp [stringOf, alphaAt, padOf, hQ, hT, hpad]

/-- Settles O46: the two strings keep the same bits; and the one byte that `"TR=="` keeps has the symbol values of
`"TQ=="`. -/
theorem droppedBitsAreNotRestored : Obligations.DroppedBitsAreNotRestored := by
  refine ⟨fun s data v w pads hagree hwf hfit hsame => ?_, fun s hroms => ?_⟩
  · have hkept : v.extractLsb' (2 * pads) (6 - 2 * pads) = w.extractLsb' (2 * pads) (6 - 2 * pads) := by
      rcases hsame with ⟨rfl, h⟩ | ⟨rfl, h⟩ <;> exact h
    have hlen : (data ++ [v]).length = data.length + 1 ∧ (data ++ [w]).length = data.length + 1 := by simp
    have hwf' : WellFormedString (data ++ [w]) pads := by
      rwa [WellFormedString, hlen.2, ← hlen.1]
    obtain ⟨t, ht, htstatus, -, -, htres⟩ := execDec_loadString hagree hwf (by rwa [hlen.1])
    obtain ⟨u, hu, hustatus, -, -, hures⟩ := execDec_loadString hagree hwf' (by rwa [hlen.2])
    exact ⟨t, u, ht, htstatus, hu, hustatus, by rw [hures, htres, decodedBytes_dropped hwf hkept]⟩
  · have hfour := capIn_bounds.1
    have hwf : WellFormedString [19#6, 17#6] 2 := by unfold WellFormedString; decide
    have hbytes : decodedBytes [19#6, 17#6] = [0x4D#8] := by decide
    have hsyms : encodedSyms [0x4D#8] = [19#6, 16#6] := by decide
    obtain ⟨t, hdec, -, halpha, -, htres⟩ := execDec_loadString hroms.agree hwf hfour
    rw [hbytes] at htres
    obtain ⟨u, henc, -, -, -, hures⟩ := execEnc_loadInput t (b := t.result) (by simp [htres]; omega)
    obtain ⟨hwell, -⟩ := hroms
    rw [alphabetWellFormed, Bool.and_eq_true] at hwell
    refine ⟨t, u, hdec, htres, henc, ?_⟩
    rw [hures, htres, hsyms, halpha]
    exact stringOf_pinned hwell.2

end Sys2Proof.Proofs
end

section
/-! PROOFS. The faults and their flags (spec/60_exceptions.md R130 to R138): a reserved command word, the two faults of a
length, the order in which the checks are made, and the flags' stickiness; and the idle block (R145, R160). -/

namespace Sys2Proof.Proofs

open Sys2Proof.Machine

/-- Settles O10: a step with no transaction to take is the identity. -/
theorem idleBlockHoldsItsState : Obligations.IdleBlockHoldsItsState := by
  intro s hp
  rw [step, hp]

/-! ## A reserved command word (R56, R132) -/

theorem runCommand_of_reserved {v : Byte} (h : rsvField v ≠ 0#6) (s : State) : runCommand v s = .next (s.setFlag .cmd) := by
  rw [runCommand, decode, if_neg h]

/-- Settles O4: the flag of `ERR_CMD` is mask 0x02, and no more than the flag is set. -/
theorem reservedCommandSetsErrCmdOnly : Obligations.ReservedCommandSetsErrCmdOnly := by
  intro s v rest hp hreserved
  exact (step_of_pending hp).trans (runCommand_of_reserved hreserved _)

/-! ## The two faults of a length (R133, R134, R135) -/

/-- Settles O22: both commands raise `ERR_CAP`, with the effect of every fault of DEC and ENC. -/
theorem tooLongInputRaisesErrCap : Obligations.TooLongInputRaisesErrCap :=
  fun s hlong => ⟨⟨_, execDec_tooLong hlong, raise_faultEffect s .cap⟩, ⟨_, execEnc_tooLong hlong, raise_faultEffect s .cap⟩⟩

/-- Settles O23: DEC raises `ERR_LEN`, with the effect of every fault of DEC. -/
theorem partialGroupRaisesErrLen : Obligations.PartialGroupRaisesErrLen :=
  fun s hfit hpart => ⟨_, execDec_partialGroup hfit hpart, raise_faultEffect s .len⟩

/-! ## The order of the checks (R137) -/

/-- STATUS after DEC: the first of its three checks that fails sets its flag. -/
theorem execDec_status (s : State) : ∃ t, exec .dec s = .next t ∧
    t.status =
      if Config.capIn < s.ilen.toNat then s.status ||| 0x04#8
      else if s.ilen.toNat % 4 ≠ 0 then s.status ||| 0x08#8
      else if ¬ (∀ i, i < s.effLen → s.symbolAt i = true) then s.status ||| 0x10#8
      else s.status := by
  by_cases hlong : Config.capIn < s.ilen.toNat
  · rw [if_pos hlong]
    exact ⟨_, execDec_tooLong hlong, rfl⟩
  rw [if_neg hlong]
  have hfit := Nat.not_lt.1 hlong
  by_cases hpart : s.ilen.toNat % 4 ≠ 0
  · rw [if_pos hpart]
    exact ⟨_, execDec_partialGroup hfit hpart, rfl⟩
  rw [if_neg hpart]
  have hwhole := Decidable.not_not.1 hpart
  by_cases hgood : ∀ i, i < s.effLen → s.symbolAt i = true
  · rw [if_neg (not_not.2 hgood)]
    exact ⟨_, execDec_clean ⟨hfit, hwhole, hgood⟩, rfl⟩
  · rw [if_pos hgood]
    push Not at hgood
    obtain ⟨i, hi, hbad⟩ := hgood
    exact ⟨_, execDec_invalid hfit hwhole hi (Bool.eq_false_iff.2 hbad), rfl⟩

/-- STATUS after ENC: its one check that can fail is that of the length. -/
theorem execEnc_status (s : State) : ∃ t, exec .enc s = .next t ∧
    t.status = if Config.capIn < s.ilen.toNat then s.status ||| 0x04#8 else s.status := by
  by_cases hlong : Config.capIn < s.ilen.toNat
  · rw [if_pos hlong]
    exact ⟨_, execEnc_tooLong hlong, rfl⟩
  · rw [if_neg hlong]
    exact ⟨_, execEnc_fits (Nat.not_lt.1 hlong), rfl⟩

/-- Settles O25: a word is reserved or one of the four; bit 1 tells NOP and TBL, which check nothing, from DEC and ENC, and
bit 0 tells DEC from ENC. -/
theorem firstFailingCheckIsRaised : Obligations.FirstFailingCheckIsRaised := by
  intro v s
  by_cases hreserved : v.extractLsb' 2 6 = 0#6
  · obtain ⟨i, hd⟩ := (exists_decode_iff v).2 hreserved
    rw [runCommand_of_decode hd, if_neg (not_not.2 hreserved), ← encode_of_decode hd]
    cases i with
    | nop => exact ⟨s, rfl, rfl⟩
    | tbl => exact ⟨s, rfl, rfl⟩
    | dec =>
      have hbit1 : ¬ (encode .dec).extractLsb' 1 1 = 0#1 := by decide
      have hbit0 : (encode .dec).extractLsb' 0 1 = 0#1 := by decide
      simpa only [if_neg hbit1, hbit0, true_and] using execDec_status s
    | enc =>
      have hbit1 : ¬ (encode .enc).extractLsb' 1 1 = 0#1 := by decide
      have hbit0 : ¬ (encode .enc).extractLsb' 0 1 = 0#1 := by decide
      simpa only [if_neg hbit1, hbit0, false_and, if_false] using execEnc_status s
  · exact ⟨_, runCommand_of_reserved hreserved s, (if_pos hreserved).symm⟩

/-! ## The flags are sticky (R138) -/

section Sticky

variable {s t : State} {c : ErrCause} (hset : errSet s.status c = true)
include hset

/-- A command leaves STATUS as it was or sets one more flag. -/
theorem runCommand_keeps_flag {v : Byte} (h : runCommand v s = .next t) : errSet t.status c = true := by
  rcases runCommand_cases h with ⟨i, -, he⟩ | ⟨-, rfl⟩
  · rcases exec_cases he with rfl | ⟨d, -, rfl⟩ | ⟨-, rfl⟩ | ⟨-, rfl⟩
    · exact hset
    · exact errSet_setErr _ c d hset
    · exact hset
    · exact hset
  · exact errSet_setErr _ c .cmd hset

/-- Of the other transactions only the reset writes STATUS. -/
theorem transact_keeps_flag {x : Transaction} (h : transact x s = .next t) (hx : x ≠ .reset) :
    errSet t.status c = true := by
  rcases transact_cases h with ⟨v, -, hc⟩ | ⟨-, rfl⟩ | ⟨v, -, rfl⟩ | ⟨n, v, -, -, rfl⟩ | ⟨i, v, -, -, rfl⟩ |
    ⟨i, -, -, rfl⟩ | ⟨i, -, -, rfl⟩ | ⟨hreset, -⟩
  · exact runCommand_keeps_flag hset hc
  · exact hset
  · exact hset
  · exact hset
  · exact hset
  · exact hset
  · exact hset
  · exact absurd hreset hx

end Sticky

/-- Settles O26: an idle step changes nothing, and every transaction but the reset keeps each flag that is set. -/
theorem errorFlagsAreSticky : Obligations.ErrorFlagsAreSticky := by
  intro s t c h hreset hset
  rcases step_cases h with ⟨-, rfl⟩ | ⟨x, rest, hp, hx⟩
  · exact hset
  · refine transact_keeps_flag (s := { s with pending := rest }) hset hx ?_
    rintro rfl
    exact hreset rest hp

end Sys2Proof.Proofs
end

section
/-! PROOFS. Reset and the end of every command (spec/70_reset_and_hazards.md R150, R159): what the reset transaction leaves,
and that each bounded loop of DEC and ENC has reached its end within the turns that the model allows it. -/

namespace Sys2Proof.Proofs

open Sys2Proof.Machine

/-! ## Reset (R150) -/

theorem step_of_reset {s : State} {rest : List Transaction} (hp : s.pending = .reset :: rest) :
    step s = .next ({ s with pending := rest } : State).resetEvent :=
  step_of_pending hp

/-- Both buffers are empty after the reset event, so every element reads as the free value of the new generation. -/
theorem resetEvent_ibufAt (s : State) (i : Nat) : s.resetEvent.ibufAt i = Config.freeIbuf (s.ibufGen + 1) i := rfl

theorem resetEvent_obufAt (s : State) (i : Nat) : s.resetEvent.obufAt i = Config.freeObuf (s.obufGen + 1) i := rfl

/-- Settles O14: the step is the reset event, which `State.resetEvent`'s lemmas give field by field. -/
theorem resetTransaction : Obligations.ResetTransaction := by
  intro s rest hp
  refine ⟨_, step_of_reset hp, ?_⟩
  simp [resetEvent_ibufAt, resetEvent_obufAt]

/-! ## Loops with a bound on their turns (R159)

The four loops have one shape: a `while` cut off after a number of turns (notes/assumptions/13.md). -/

/-- `loop n` is `while cond do turn`, cut off after `n` turns. -/
def BoundedWhile {σ : Type} (cond : σ → Prop) [DecidablePred cond] (turn : σ → σ) (loop : Nat → σ → σ) : Prop :=
  (∀ r, loop 0 r = r) ∧ ∀ n r, loop (n + 1) r = if cond r then loop n (turn r) else r

section Loops

variable {σ : Type} {cond : σ → Prop} [DecidablePred cond] {turn : σ → σ} {loop : Nat → σ → σ}

/-- A loop that has reached its end within `k` turns is not changed by more of them. -/
theorem BoundedWhile.more_turns (h : BoundedWhile cond turn loop) {k n : Nat} {r : σ} (hkn : k ≤ n)
    (hend : ¬ cond (loop k r)) : loop n r = loop k r := by
  obtain ⟨hzero, hsucc⟩ := h
  induction k generalizing n r with
  | zero =>
    rw [hzero] at hend ⊢
    cases n with
    | zero => exact hzero r
    | succ n => rw [hsucc, if_neg hend]
  | succ k ih =>
    obtain ⟨n, rfl⟩ := Nat.exists_eq_add_of_le' (Nat.le_of_add_left_le hkn)
    rw [hsucc] at hend ⊢
    rw [hsucc]
    split
    · rw [if_pos ‹_›] at hend
      exact ih (Nat.le_of_succ_le_succ hkn) hend
    · rfl

/-- A measure that every turn lowers bounds the turns to the end. -/
theorem BoundedWhile.ends_of_measure (h : BoundedWhile cond turn loop) (measure : σ → Nat)
    (hlower : ∀ r, cond r → measure (turn r) < measure r) {n : Nat} {r : σ} (hn : measure r ≤ n) :
    ¬ cond (loop n r) := by
  obtain ⟨hzero, hsucc⟩ := h
  induction n generalizing r with
  | zero =>
    rw [hzero]
    intro hc
    have := hlower r hc
    omega
  | succ n ih =>
    rw [hsucc]
    split
    · have := hlower r ‹_›
      exact ih (by omega)
    · assumption

end Loops

theorem decLoop_boundedWhile (rd : Nat → Byte) (rev : RevTable) (eff olen : Nat) :
    BoundedWhile (·.iidx < eff) (decTurn rd rev eff olen) (decLoop rd rev eff olen) :=
  ⟨fun _ => rfl, fun _ _ => rfl⟩

theorem encLoop_boundedWhile (rd : Nat → Byte) (alpha : AlphaTable) (len : Nat) :
    BoundedWhile (encGoesOn len · = true) (encTurn rd alpha len) (encLoop rd alpha len) :=
  ⟨fun _ => rfl, fun _ _ => rfl⟩

theorem encFill_boundedWhile (rd : Nat → Byte) (len : Nat) :
    BoundedWhile (fun r => (needsFill r.nbits && r.iidx < len) = true) (encTake rd) (encFill rd len) :=
  ⟨fun _ => rfl, fun _ _ => rfl⟩

/-- One pad is sent out: a turn of the pad loop (R107). -/
def encSendPad (pad : Byte) (r : EncRun) : EncRun :=
  { r with out := Memory.write r.out r.oidx pad, oidx := r.oidx + 1 }

theorem encPad_boundedWhile (pad : Byte) : BoundedWhile (·.oidx % 4 ≠ 0) (encSendPad pad) (encPad pad) :=
  ⟨fun _ => rfl, fun _ _ => rfl⟩

/-! ## The end of each loop -/

/-- The chunk loop advances IIDX by 4 a turn, so it passes EFF in `ceil(EFF / 4)` turns (R80, R85). -/
theorem decRun_ended (rd : Nat → Byte) (rev : RevTable) (eff : Nat) : ¬ (decRun rd rev eff).iidx < eff := by
  rw [(decRun_spec rd rev eff).1, decTurns]
  omega

/-- After the turns of `encTurns` no character is to come (R102). -/
theorem encLoop_ended (rd : Nat → Byte) (alpha : AlphaTable) (len : Nat) :
    ¬ encGoesOn len (encLoop rd alpha len (encTurns len) encStart) = true := by
  rw [encGoesOn_iff (encLoop_start_after rd alpha len (encTurns len)), Nat.min_self]
  exact Nat.lt_irrefl _

/-- The bytes that bring a signed count to 6 or more. -/
def bytesToFill (nbits : BitCount) : Nat := ((13 - nbits.toInt) / 8).toNat

theorem bytesToFill_le (nbits : BitCount) : bytesToFill nbits ≤ encFillTurns := by
  have hlow : -16 ≤ nbits.toInt := BitVec.le_toInt nbits
  unfold bytesToFill encFillTurns
  omega

theorem bytesToFill_countFill {nbits : BitCount} (h : needsFill nbits = true) :
    bytesToFill (countFill nbits) < bytesToFill nbits := by
  have hfew : nbits.toInt < 6 := of_decide_eq_true h
  unfold bytesToFill
  rw [countFill_toInt nbits (by omega)]
  omega

/-- Every byte brings the count 8 nearer to 6, and a 5-bit count is at least -16 (R15, R103). -/
theorem encFill_ended (rd : Nat → Byte) (len : Nat) (r : EncRun) :
    ¬ (needsFill (encFill rd len encFillTurns r).nbits && (encFill rd len encFillTurns r).iidx < len) = true := by
  refine (encFill_boundedWhile rd len).ends_of_measure (fun r => bytesToFill r.nbits) (fun r hc => ?_)
    (bytesToFill_le r.nbits)
  exact bytesToFill_countFill (Bool.and_eq_true_iff.1 hc).1

/-- The pads still to come are one fewer after each (R107). -/
theorem encPad_ended (pad : Byte) (r : EncRun) : ¬ (encPad pad encPadTurns r).oidx % 4 ≠ 0 := by
  refine (encPad_boundedWhile pad).ends_of_measure (fun r => 3 - (r.oidx + 3) % 4) (fun r hc => ?_)
    (Nat.sub_le ..)
  show 3 - (r.oidx + 1 + 3) % 4 < 3 - (r.oidx + 3) % 4
  omega

/-- Settles O52: each loop has ended within its bound, so `BoundedWhile.more_turns` gives that more turns change nothing. -/
theorem commandsTerminate : Obligations.CommandsTerminate := by
  refine ⟨fun rd rev eff n hn => ?_, fun rd alpha len n hn => ?_, fun rd len n r hn => ?_, fun pad n r hn => ?_, exec_next⟩
  · have hend := decRun_ended rd rev eff
    exact ⟨(decLoop_boundedWhile ..).more_turns hn hend, hend⟩
  · have hend := encLoop_ended rd alpha len
    exact ⟨(encLoop_boundedWhile ..).more_turns hn hend, Bool.eq_false_iff.2 hend⟩
  · have hend := encFill_ended rd len r
    exact ⟨(encFill_boundedWhile ..).more_turns hn hend, by simpa using hend⟩
  · have hend := encPad_ended pad r
    exact ⟨(encPad_boundedWhile pad).more_turns hn hend, Decidable.not_not.1 hend⟩

end Sys2Proof.Proofs
end
